-- ==== Sys2Proof/Word.lean ====
section
/-! DEFINITION. The widths of spec/: the values the block computes with, each under the name the spec gives it
(00_scope.md R7, 10_state.md R13, 30_encoding.md R46, R51). -/

namespace Sys2Proof

/-- A transported byte, `u8` (DATA_W, 00_scope.md R3). -/
abbrev Byte := BitVec 8

/-- A 7-bit I2C device address, `u7` (ADDR_W, 00_scope.md R3; 20_memory.md R26). -/
abbrev DevAddr := BitVec 7

/-- The four data bits of a nibble strobe, `u4` (40_sequencer.md R60). -/
abbrev Nibble := BitVec 4

/-- A one-bit field, `u1`: `BL`, `RS`, the enable strobe, the flag operand `f` (30_encoding.md R47, R52). -/
abbrev Bit := BitVec 1

/-- The row operand, 0 to 3: a two-bit field of the request word (30_encoding.md R47, R48). -/
abbrev Row := BitVec 2

/-- The argument of `Delay`, a `u32` count of milliseconds (20_memory.md R31). -/
abbrev Ms := BitVec 32

/-- The request word `W` (30_encoding.md R46). -/
abbrev RequestWord := BitVec 32

/-- An opaque error value of the transport (60_exceptions.md R94; 93_implementation_defined.md S7).
DESIGN CHOICE (log 9, safe): error values are named by numbers, and nothing in the model looks at the number. -/
abbrev TransportError := Nat

end Sys2Proof
end

