-- ==== Sys2Proof/Config.lean ====
section
/-! DEFINITION. The parameters of 00_scope.md R3, the words of the boundary to the transport and the delay primitive
(00_scope.md R4, R5, R8), and the values that the spec leaves open, which are constants without a body. -/

namespace Sys2Proof

/-- `N_PRE3`, how many raw 0x3 nibbles INIT sends first: 2 or 3 (00_scope.md R3; 90_conflicts.md C1). -/
inductive PreambleCount where
  | two
  | three
deriving DecidableEq, Repr

/-- `WRAP_OTHER_ROWS`: where characters 1, 2, … of a string started on rows 1 to 3 go
(00_scope.md R3; 43_layout.md R87; 90_conflicts.md C4). -/
inductive WrapOtherRows where
  | row0Literal
  | sameRow
deriving DecidableEq, Repr

/-- The parameters that the spec leaves to the platform or gives more than one value (00_scope.md R3). -/
structure Params where
  /-- `ADDR_DEFAULT`: DeviceAddress after reset. -/
  addrDefault : DevAddr
  /-- `BL_RESET`: BacklightState after reset. -/
  blReset : Bit
  /-- `T_WRITE`: the delay issued after every successful register write. -/
  tWrite : Ms
  /-- `N_PRE3`. -/
  nPre3 : PreambleCount
  /-- `WRAP_OTHER_ROWS`. -/
  wrapOtherRows : WrapOtherRows
deriving DecidableEq, Repr

/-- One call of the transport, as the block makes it (00_scope.md R8; 20_memory.md R29, R30). -/
inductive Call where
  | write (a : DevAddr) (v : Byte)
  | read (a : DevAddr)
deriving DecidableEq, Repr

/-- The transport's answer to one call (20_memory.md R29, R30). `ok` carries the byte that a `Read` returns; a `Write`
answered `ok` does not look at it. -/
inductive Answer where
  | ok (data : Byte)
  | err (e : TransportError)
deriving DecidableEq, Repr, Inhabited

/-- One event of the trace, as 00_scope.md R5(1) lists them: a `Read` stands with the byte or error returned. -/
inductive Event where
  | write (a : DevAddr) (v : Byte)
  | read (a : DevAddr) (r : Answer)
  | delay (ms : Ms)
deriving DecidableEq, Repr

namespace Config

/-- `TEXT_MAX`, the longest text of a PUTSTR request (00_scope.md R3; 92_eei_decisions.md D25). -/
def textMax : Nat := 255

/-- `T_INIT_GAP`, the delay after each preamble nibble of INIT (00_scope.md R3; 92_eei_decisions.md D9). -/
def tInitGap : Ms := 5

/-- `COLS`, the columns of a row before the row-0 wrap (00_scope.md R3). -/
def cols : Nat := 16

/-- `ADDR_DEFAULT` is OPEN: a 7-bit value that nothing constrains (00_scope.md R3; 92_eei_decisions.md D5; log 5). -/
opaque addrDefault : DevAddr

/-- `T_WRITE` is OPEN: a count of milliseconds that nothing constrains (00_scope.md R3; 92_eei_decisions.md D8; log 5). -/
opaque tWrite : Ms

/-- The transport's answer to a call once the answers listed in `State.bus` have run out: a free value that may depend
on every event so far and on the call itself (00_scope.md R4; 93_implementation_defined.md S7, S8; log 3). -/
opaque freeAnswer (history : List Event) (call : Call) : Answer

/-- The parameters of the machine that `State.reset` starts: the spec's defaults where it gives one, else the open
constants (00_scope.md R3; 92_eei_decisions.md D5, D6, D8, D10, D22; log 5). -/
def params : Params :=
  { addrDefault := addrDefault, blReset := 1, tWrite := tWrite, nPre3 := .two, wrapOtherRows := .row0Literal }

end Config

end Sys2Proof
end

