-- ==== Sys2Proof/Syntax.lean ====
section
/-! DEFINITION. The requests: one constructor for each row of spec/opcode_table.json (30_encoding.md R49), with the
operands of 30_encoding.md R47 and R48, and the kinds of payload (R46). -/

namespace Sys2Proof

/-- A legal request, by its operation and operands (30_encoding.md R48, R49). -/
inductive Instr where
  | init (addr : DevAddr)
  | setaddr (addr : DevAddr)
  | autodet
  | probe
  | clear
  | bkl (f : Bit)
  | vis (f : Bit)
  | shl
  | shr
  | wcmd (byte : Byte)
  | wdat (byte : Byte)
  | setcur (col : Byte) (row : Row)
  | putstr (col : Byte) (row : Row) (text : List Byte)
  | putnum (col : Byte) (row : Row) (n : BitVec 32)
deriving DecidableEq, Repr

/-- The operation alone, which the `OP` field selects (30_encoding.md R49). -/
inductive Mnemonic where
  | init | setaddr | autodet | probe | clear | bkl | vis | shl | shr | wcmd | wdat | setcur | putstr | putnum
deriving DecidableEq, Repr

/-- The operand formats `Z`, `AD`, `F`, `BY`, `CR`, `CRT`, `CRN` (30_encoding.md R47). -/
inductive Format where
  | z | ad | f | byt | cr | crt | crn
deriving DecidableEq, Repr

/-- The payload `P` of a request: TEXT for PUTSTR, the int32 `N` for PUTNUM, none for every other operation
(30_encoding.md R46). -/
inductive Payload where
  | empty
  | text (t : List Byte)
  | number (n : BitVec 32)
deriving DecidableEq, Repr

/-- The kinds of payload (30_encoding.md R46). -/
inductive PayloadKind where
  | empty
  | text
  | number
deriving DecidableEq, Repr

/-- The kind of a payload. -/
def Payload.kind : Payload → PayloadKind
  | .empty => .empty
  | .text _ => .text
  | .number _ => .number

/-- The operation of a request. -/
def Instr.mnemonic : Instr → Mnemonic
  | .init _ => .init
  | .setaddr _ => .setaddr
  | .autodet => .autodet
  | .probe => .probe
  | .clear => .clear
  | .bkl _ => .bkl
  | .vis _ => .vis
  | .shl => .shl
  | .shr => .shr
  | .wcmd _ => .wcmd
  | .wdat _ => .wdat
  | .setcur _ _ => .setcur
  | .putstr _ _ _ => .putstr
  | .putnum _ _ _ => .putnum

/-- The payload column of each format (30_encoding.md R47). -/
def Format.payloadKind : Format → PayloadKind
  | .crt => .text
  | .crn => .number
  | .z | .ad | .f | .byt | .cr => .empty

/-- The format of each operation (30_encoding.md R49). -/
def Mnemonic.format : Mnemonic → Format
  | .init | .setaddr => .ad
  | .autodet | .probe | .clear | .shl | .shr => .z
  | .bkl | .vis => .f
  | .wcmd | .wdat => .byt
  | .setcur => .cr
  | .putstr => .crt
  | .putnum => .crn

end Sys2Proof
end

