-- ==== Sys2Proof/WellFormed.lean ====
section
/-! DEFINITION. Which terms of `Instr` are legal requests. The widths of the operands are in their types, so one check
is left: the length of a PUTSTR text (30_encoding.md R46, R55). -/

namespace Sys2Proof

/-- A legal request: a PUTSTR text has at most `TEXT_MAX` bytes (30_encoding.md R46, R50, R55). -/
def Instr.wf : Instr → Bool
  | .putstr _ _ text => decide (text.length ≤ Config.textMax)
  | .init _ | .setaddr _ | .autodet | .probe | .clear | .bkl _ | .vis _ | .shl | .shr | .wcmd _ | .wdat _
  | .setcur _ _ | .putnum _ _ _ => true

end Sys2Proof
end

