-- ==== Sys2Proof/Decode.lean ====
section
/-! DEFINITION. The request, a word with a payload typed by its `OP` (30_encoding.md R46); the decoder of request word plus
payload (30_encoding.md R46 to R50, R55, R56), total and rejecting every form the spec calls ILLEGAL; the encoder of a legal
request (R47, R57); the opcode table of R49. -/

namespace Sys2Proof

/-! ### The fields of the request word (30_encoding.md R46) -/

/-- `OP = W[31:28]`. -/
def opField (w : RequestWord) : BitVec 4 := w.extractLsb' 28 4

/-- `RSVD = W[27:16]`. -/
def rsvdField (w : RequestWord) : BitVec 12 := w.extractLsb' 16 12

/-- `A = W[15:8]`. -/
def fieldA (w : RequestWord) : Byte := w.extractLsb' 8 8

/-- `B = W[7:0]`. -/
def fieldB (w : RequestWord) : Byte := w.extractLsb' 0 8

/-- `addr = A[6:0]` (30_encoding.md R48). -/
def addrOperand (w : RequestWord) : DevAddr := (fieldA w).extractLsb' 0 7

/-- `f = B[0]` (30_encoding.md R48). -/
def flagOperand (w : RequestWord) : Bit := (fieldB w).extractLsb' 0 1

/-- `row = B[1:0]` (30_encoding.md R48). -/
def rowOperand (w : RequestWord) : Row := (fieldB w).extractLsb' 0 2

/-- The operation an `OP` value selects; 0x0 and 0xF are reserved (30_encoding.md R49, R55). -/
def mnemonicOf (op : BitVec 4) : Option Mnemonic :=
  match op.toNat with
  | 0x1 => some .init
  | 0x2 => some .setaddr
  | 0x3 => some .autodet
  | 0x4 => some .probe
  | 0x5 => some .clear
  | 0x6 => some .bkl
  | 0x7 => some .vis
  | 0x8 => some .shl
  | 0x9 => some .shr
  | 0xA => some .wcmd
  | 0xB => some .wdat
  | 0xC => some .setcur
  | 0xD => some .putstr
  | 0xE => some .putnum
  | _ => none

/-! ### The request (30_encoding.md R46) -/

/-- The kind of payload that goes with a request word: "A request's payload is typed by its `OP`", TEXT for PUTSTR, the
number for PUTNUM, "none for every other operation" (30_encoding.md R46). The two reserved `OP` values, which are no
operation, take none: DEDUCED (log 6, safe). -/
def payloadKind (w : RequestWord) : PayloadKind :=
  match mnemonicOf (opField w) with
  | some m => m.format.payloadKind
  | none => .empty

/-- A request as it stands at the request port: the word `W` and the payload `P`, which is of the kind the word's `OP`
selects, so that "a request whose payload is of the wrong kind cannot be formed" (30_encoding.md R46; log 6). -/
@[ext] structure Request where
  word : RequestWord
  payload : Payload
  typed : payload.kind = payloadKind word := by decide
deriving DecidableEq, Repr

/-! ### Decoding (30_encoding.md R50) -/

/-- The must-be-zero operand bits of a format are zero (30_encoding.md R47, R50). -/
def Format.zerosHold (w : RequestWord) : Format → Bool
  | .z => fieldA w == 0 && fieldB w == 0
  | .ad => (fieldA w).extractLsb' 7 1 == 0 && fieldB w == 0
  | .f => fieldA w == 0 && (fieldB w).extractLsb' 1 7 == 0
  | .byt => fieldA w == 0
  | .cr | .crt | .crn => (fieldB w).extractLsb' 2 6 == 0

/-- The text of a PUTSTR request, of at most `TEXT_MAX` bytes (30_encoding.md R50). No other kind of payload stands beside
PUTSTR's `OP` (`Request.typed`). -/
def Payload.legalText : Payload → Option (List Byte)
  | .text t => if t.length ≤ Config.textMax then some t else none
  | .empty => none
  | .number _ => none

/-- The number of a PUTNUM request. No other kind of payload stands beside PUTNUM's `OP` (`Request.typed`). -/
def Payload.int32 : Payload → Option (BitVec 32)
  | .number n => some n
  | .empty => none
  | .text _ => none

/-- The request of row `m`, with the operands of 30_encoding.md R48 and, for PUTSTR, a text of at most `TEXT_MAX` bytes
(R50). The other operations have no payload to look at. -/
def operandsOf (m : Mnemonic) (w : RequestWord) (p : Payload) : Option Instr :=
  match m with
  | .init => some (.init (addrOperand w))
  | .setaddr => some (.setaddr (addrOperand w))
  | .autodet => some .autodet
  | .probe => some .probe
  | .clear => some .clear
  | .bkl => some (.bkl (flagOperand w))
  | .vis => some (.vis (flagOperand w))
  | .shl => some .shl
  | .shr => some .shr
  | .wcmd => some (.wcmd (fieldB w))
  | .wdat => some (.wdat (fieldB w))
  | .setcur => some (.setcur (fieldA w) (rowOperand w))
  | .putstr => p.legalText.map fun t => .putstr (fieldA w) (rowOperand w) t
  | .putnum => p.int32.map fun n => .putnum (fieldA w) (rowOperand w) n

/-- `decode(W, P)` of 30_encoding.md R50: the legal request, or `none` where the spec says ILLEGAL. -/
def decode (q : Request) : Option Instr :=
  match mnemonicOf (opField q.word) with
  | none => none
  | some m =>
    if rsvdField q.word = 0 ∧ m.format.zerosHold q.word then operandsOf m q.word q.payload else none

/-! ### The encoder -/

/-- The `OP` value of an operation (30_encoding.md R49). -/
def Mnemonic.opcode : Mnemonic → BitVec 4
  | .init => 0x1
  | .setaddr => 0x2
  | .autodet => 0x3
  | .probe => 0x4
  | .clear => 0x5
  | .bkl => 0x6
  | .vis => 0x7
  | .shl => 0x8
  | .shr => 0x9
  | .wcmd => 0xA
  | .wdat => 0xB
  | .setcur => 0xC
  | .putstr => 0xD
  | .putnum => 0xE

/-- A request word from its three used fields, `RSVD` zero (30_encoding.md R46). -/
def assembleWord (op : BitVec 4) (a b : Byte) : RequestWord := op ++ (0 : BitVec 12) ++ a ++ b

/-- `A` of a request (30_encoding.md R47). -/
def Instr.operandA : Instr → Byte
  | .init addr | .setaddr addr => addr.setWidth 8
  | .setcur col _ | .putstr col _ _ | .putnum col _ _ => col
  | .autodet | .probe | .clear | .bkl _ | .vis _ | .shl | .shr | .wcmd _ | .wdat _ => 0

/-- `B` of a request (30_encoding.md R47). -/
def Instr.operandB : Instr → Byte
  | .bkl f | .vis f => f.setWidth 8
  | .wcmd byte | .wdat byte => byte
  | .setcur _ row | .putstr _ row _ | .putnum _ row _ => row.setWidth 8
  | .init _ | .setaddr _ | .autodet | .probe | .clear | .shl | .shr => 0

/-- The payload of a request (30_encoding.md R46). -/
def Instr.payload : Instr → Payload
  | .putstr _ _ text => .text text
  | .putnum _ _ n => .number n
  | .init _ | .setaddr _ | .autodet | .probe | .clear | .bkl _ | .vis _ | .shl | .shr | .wcmd _ | .wdat _
  | .setcur _ _ => .empty

/-- The request word of a request: "`A` and `B` are filled by rule R47 and the other bits are 0" (30_encoding.md R57). -/
def encodeWord (i : Instr) : RequestWord := assembleWord i.mnemonic.opcode i.operandA i.operandB

@[simp] theorem opField_assembleWord (op : BitVec 4) (a b : Byte) : opField (assembleWord op a b) = op := by
  apply BitVec.eq_of_getLsbD_eq
  intro i hi
  simp [opField, assembleWord]
  grind

/-- The payload of a request is of the kind its word's `OP` selects. -/
theorem Instr.payload_kind (i : Instr) : i.payload.kind = payloadKind (encodeWord i) := by
  cases i <;> simp [encodeWord, payloadKind, mnemonicOf, Instr.payload, Payload.kind, Instr.mnemonic, Mnemonic.opcode, Mnemonic.format,
    Format.payloadKind]

/-- The request word and payload of a request (30_encoding.md R46, R57). -/
def encode (i : Instr) : Request := { word := encodeWord i, payload := i.payload, typed := i.payload_kind }

/-! ### The opcode table -/

/-- A row of the opcode table (30_encoding.md R49). -/
structure OpRow where
  mnemonic : Mnemonic
  matchBits : RequestWord
  mask : RequestWord
deriving DecidableEq, Repr

/-- The table of 30_encoding.md R49, its `match` and `mask` columns; the two reserved rows are left out. -/
def opcodeTable : List OpRow :=
  [ ⟨.init, 0x10000000, 0xFFFF80FF⟩, ⟨.setaddr, 0x20000000, 0xFFFF80FF⟩,
    ⟨.autodet, 0x30000000, 0xFFFFFFFF⟩, ⟨.probe, 0x40000000, 0xFFFFFFFF⟩,
    ⟨.clear, 0x50000000, 0xFFFFFFFF⟩, ⟨.bkl, 0x60000000, 0xFFFFFFFE⟩, ⟨.vis, 0x70000000, 0xFFFFFFFE⟩ ] ++
  [ ⟨.shl, 0x80000000, 0xFFFFFFFF⟩, ⟨.shr, 0x90000000, 0xFFFFFFFF⟩,
    ⟨.wcmd, 0xA0000000, 0xFFFFFF00⟩, ⟨.wdat, 0xB0000000, 0xFFFFFF00⟩,
    ⟨.setcur, 0xC0000000, 0xFFFF00FC⟩, ⟨.putstr, 0xD0000000, 0xFFFF00FC⟩, ⟨.putnum, 0xE0000000, 0xFFFF00FC⟩ ]

/-- "A word is legal for a row iff `(W & mask) == match`" (30_encoding.md R49). -/
def OpRow.accepts (r : OpRow) (w : RequestWord) : Bool := w &&& r.mask == r.matchBits

/-! ### The words of the opcode table, as the host asks about them -/

/-- The payload that stands beside a bare table word: the empty text for PUTSTR's words, the number 0 for PUTNUM's, none
for every other word. DESIGN CHOICE (log 7, safe): the table's bits hold no payload. -/
def tablePayload (w : RequestWord) : Payload :=
  match payloadKind w with
  | .text => .text []
  | .number => .number 0
  | .empty => .empty

theorem tablePayload_kind (w : RequestWord) : (tablePayload w).kind = payloadKind w := by
  unfold tablePayload
  cases payloadKind w <;> rfl

/-- The request whose word has the table's low `nbits` bits of `w`, every higher bit 0 (log 7). -/
def tableRequest (nbits w : Nat) : Request :=
  let word := BitVec.ofNat 32 (w % 2 ^ nbits)
  { word := word, payload := tablePayload word, typed := tablePayload_kind word }

/-- The instruction the decoder reads from the table's bits `w` (log 7). -/
def decodeTableWord (nbits w : Nat) : Option Instr := decode (tableRequest nbits w)

end Sys2Proof
end

