-- ==== Sys2Proof/Machine/State.lean ====
section
/-! DEFINITION. The state of the block (10_state.md R13), the inputs it has not consumed yet and the observation it has
made so far (00_scope.md R4, R5), and the state after power-on reset (10_state.md R25). -/

namespace Sys2Proof.Machine

/-- The sequencer state `SEQ` (10_state.md R22). -/
inductive Seq where
  | idle
  | busy
deriving DecidableEq, Repr

/-- The response codes (60_exceptions.md R93). -/
inductive Code where
  | ok
  | transportError
  | notFound
  | illegalRequest
deriving DecidableEq, Repr

/-- The 2-bit value of a response code (60_exceptions.md R93). -/
def Code.bits : Code → BitVec 2
  | .ok => 0
  | .transportError => 1
  | .notFound => 2
  | .illegalRequest => 3

/-- A response `(code, value, err)` (60_exceptions.md R93). -/
structure Response where
  code : Code
  value : Byte
  err : Option TransportError
deriving DecidableEq, Repr

/-- The machine. The first five fields are the block's state, "exactly the fields" of 10_state.md R13; the others are the
model's own: the parameters of the run, its inputs, and what has been observed of it (10_state.md R24; log 2 to log 5). -/
structure State where
  /-- `ADDR`, DeviceAddress (10_state.md R14). -/
  addr : DevAddr
  /-- `BL`, BacklightState: 1 = on (10_state.md R17). -/
  bl : Bit
  /-- `RS`, RegisterSelectMode: 0 = instruction register, 1 = data register (10_state.md R18). -/
  rs : Bit
  /-- `SEQ_BROKEN`: some request has ended in TRANSPORT_ERROR (10_state.md R21). -/
  seqBroken : Bool
  /-- `SEQ` (10_state.md R22). -/
  seq : Seq
  /-- The parameters of 00_scope.md R3, an argument of every step; nothing writes them. DESIGN CHOICE (log 5, safe). -/
  params : Params
  /-- The requests that the host has issued and the block has not accepted yet, oldest first (10_state.md R22;
  20_memory.md R40). DESIGN CHOICE (log 2, safe). -/
  port : List Request
  /-- The transport's answers to the next calls, the next one first (00_scope.md R4). DESIGN CHOICE (log 3, safe). -/
  bus : List Answer
  /-- The transport events so far, oldest first (00_scope.md R5). DESIGN CHOICE (log 4, safe). -/
  trace : List Event
  /-- The responses so far, oldest first (00_scope.md R5). DESIGN CHOICE (log 4, safe). -/
  replies : List Response
deriving DecidableEq, Repr

/-- The reasons for a fault: none. The block has no traps (60_exceptions.md, its opening; R99), and a failed transport
call is a response and a next state (R94). -/
inductive Fault where
deriving DecidableEq, Repr

/-- The reasons for a refusal. -/
inductive Refusal where
  /-- An instruction that has no meaning in the model yet, raised by `exec`'s arm for it. Safe: nothing is claimed of it. -/
  | notModelled (mnemonic : String)
  /-- A request run while `SEQ = BUSY`, raised by `request`, so by every meaning: "A model refuses a run that interleaves
  two requests on one instance" (60_exceptions.md R105; 10_state.md R22; 93_implementation_defined.md U5; log 8). Safe:
  nothing is claimed of such a run. -/
  | interleaved
deriving DecidableEq, Repr

/-- The outcome of a step or of a meaning. -/
abbrev Outcome := Host.Outcome State Fault Refusal

/-- Power-on reset of a block whose platform has the parameters `p` (10_state.md R25; 70_reset_and_hazards.md R108).
The inputs and the observation start empty: DESIGN CHOICE (log 2, log 3, log 4). -/
def State.powerOn (p : Params) : State :=
  { addr := p.addrDefault, bl := p.blReset, rs := 0, seqBroken := false, seq := .idle
    params := p, port := [], bus := [], trace := [], replies := [] }

/-- The machine right after reset (10_state.md R25), with the parameters of `Config.params` (log 5). -/
def State.reset : State := State.powerOn Config.params

end Sys2Proof.Machine
end

