-- ==== Sys2Proof/Machine/Flags.lean ====
section
/-! DEFINITION. The block's one-bit fields and its sequencer state, and what sets each of them. The block has no condition
codes and no flag computation (10_state.md R13, R24). -/

namespace Sys2Proof.Machine

/-- Request acceptance: `SEQ <- BUSY` (10_state.md R22). -/
def State.accept (s : State) : State := { s with seq := .busy }

/-- `SEQ_BROKEN <- 1`, which nothing but power-on undoes (10_state.md R21; 92_eei_decisions.md D32). -/
def State.breakSequence (s : State) : State := { s with seqBroken := true }

/-- `ADDR <- a` (10_state.md R15). -/
def State.setAddr (s : State) (a : DevAddr) : State := { s with addr := a }

/-- `BL <- f` (10_state.md R17). -/
def State.setBl (s : State) (f : Bit) : State := { s with bl := f }

/-- `RS <- r` (10_state.md R18). -/
def State.setRs (s : State) (r : Bit) : State := { s with rs := r }

end Sys2Proof.Machine
end

