-- ==== Sys2Proof/Machine/Operands.lean ====
section
/-! DEFINITION. The values the requests compute from their operands: the wire byte (30_encoding.md R51, R52), the nibbles
of a controller byte (40_sequencer.md R61), the DDRAM address, placement and decimal text of the layout unit
(43_layout.md R83, R87, R88, R91), and the candidates and test of the prober (42_address.md R77, R79). -/

namespace Sys2Proof.Machine

/-! ### The wire byte -/

/-- `EN`, the enable bit (30_encoding.md R52). -/
def EN : Byte := 0x04

/-- `BLmask = BL << 3` (30_encoding.md R52; 10_state.md R17). -/
def blMask (bl : Bit) : Byte := bl.setWidth 8 <<< 3

/-- `wire(n, bl, e, rs) = (n << 4) | (bl << 3) | (e << 2) | rs` (30_encoding.md R52). -/
def wire (n : Nibble) (bl e rs : Bit) : Byte :=
  (n.setWidth 8 <<< 4) ||| blMask bl ||| (e.setWidth 8 <<< 2) ||| rs.setWidth 8

/-- `b[7:4]` (40_sequencer.md R61). -/
def highNibble (b : Byte) : Nibble := b.extractLsb' 4 4

/-- `b[3:0]` (40_sequencer.md R61). -/
def lowNibble (b : Byte) : Nibble := b.extractLsb' 0 4

/-! ### The layout -/

/-- `ROW_BASE` (43_layout.md R83). -/
def rowBase (r : Row) : Byte :=
  if r = 0 then 0x80 else if r = 1 then 0xC0 else if r = 2 then 0x94 else 0xD4

/-- `caddr(c, r) = trunc_8(ROW_BASE[r] + c)` (43_layout.md R83). -/
def caddr (c : Nat) (r : Row) : Byte := BitVec.ofNat 8 ((rowBase r).toNat + c)

/-- `j`, the index of the first character on row 1 of a string started on row 0 (43_layout.md R87): `max(1, COLS - col)`,
where a negative difference counts as 0. -/
def wrapIndex (col : Byte) : Nat := max 1 (Config.cols - col.toNat)

/-- `place(k, col, row)` (43_layout.md R87). -/
def place (mode : WrapOtherRows) (k : Nat) (col : Byte) (row : Row) : Nat × Row :=
  if row = 0 then
    if k < wrapIndex col then (col.toNat + k, 0) else (k - wrapIndex col, 1)
  else if k = 0 then (col.toNat, row)
  else
    match mode with
    | .row0Literal => (col.toNat + k, 0)
    | .sameRow => (col.toNat + k, row)

/-- The command byte that addresses the cell of character `k`: the `p` of 43_layout.md R88. -/
def cellAddr (mode : WrapOtherRows) (k : Nat) (col : Byte) (row : Row) : Byte :=
  caddr (place mode k col row).1 (place mode k col row).2

/-- `k == 0 or p != trunc_8(prev + 1)` (43_layout.md R88), with no previous address before character 0. -/
def needsPosition (prev : Option Byte) (p : Byte) : Bool :=
  match prev with
  | none => true
  | some q => p != q + 1

/-- The ASCII byte of a decimal digit (43_layout.md R91). -/
def digitByte (d : Nat) : Byte := BitVec.ofNat 8 (0x30 + d)

/-- The decimal digits of `n`, most significant first, as far as `fuel` digits reach (43_layout.md R91). -/
def decDigits : Nat → Nat → List Byte
  | 0, _ => []
  | fuel + 1, n => if n < 10 then [digitByte n] else decDigits fuel (n / 10) ++ [digitByte (n % 10)]

/-- `dec(n)` of an `int32` (43_layout.md R91); ten digits reach every magnitude up to 2147483648. -/
def dec (n : BitVec 32) : List Byte :=
  if n.toInt < 0 then 0x2D :: decDigits 10 n.toInt.natAbs else decDigits 10 n.toInt.natAbs

/-! ### The prober -/

/-- `RANGE_A ++ RANGE_B`, ascending (42_address.md R77; 20_memory.md R38). -/
def candidates : List DevAddr :=
  [0x20, 0x21, 0x22, 0x23, 0x24, 0x25, 0x26, 0x27] ++ [0x38, 0x39, 0x3A, 0x3B, 0x3C, 0x3D, 0x3E, 0x3F]

/-- The all-ones probe pattern (42_address.md R77). -/
def patternOnes : Byte := 0xFF

/-- The all-zero probe pattern (42_address.md R77). -/
def patternZero : Byte := 0x00

/-- `d1 == SIG_D1 and d2 == SIG_D2`, with `d1 = r1 mod 16` and `d2` the whole second byte (42_address.md R77, R79). -/
def signatureMatches (r1 r2 : Byte) : Bool := r1.toNat % 16 == 7 && r2.toNat == 0

end Sys2Proof.Machine
end

