-- ==== Sys2Proof/Machine/Ops.lean ====
section
/-! DEFINITION. The shared operations: the calls of the transport and the delay primitive (00_scope.md R8), the
micro-operations REG, NIB and BYTE (40_sequencer.md R59, R60, R61), how a request begins and ends (10_state.md R22;
60_exceptions.md R93, R94, R96), and the probe and emission loops (42_address.md R77; 43_layout.md R88). -/

namespace Sys2Proof.Machine

/-- A piece of a request: it runs on the state and either goes on with a value or stops at the first failing transport
call, with the state written so far kept (00_scope.md R9; 60_exceptions.md R94). -/
abbrev Op := EStateM TransportError State

/-! ### The transport and the delay primitive -/

/-- The transport's answer to the next call: free in both cases (00_scope.md R4; log 3). -/
def State.answerTo (s : State) (c : Call) : Answer :=
  match s.bus with
  | a :: _ => a
  | [] => Config.freeAnswer s.trace c

/-- The event that a call answered `r` leaves in the trace (00_scope.md R5). -/
def callEvent (c : Call) (r : Answer) : Event :=
  match c with
  | .write a v => .write a v
  | .read a => .read a r

/-- The state after a call answered `r`: the answer is used up and the event has happened, whatever the answer
(60_exceptions.md R99). -/
def State.afterCall (s : State) (c : Call) (r : Answer) : State :=
  { s with bus := s.bus.tail, trace := s.trace ++ [callEvent c r] }

/-- One call of the transport: `ok` goes on with the byte, `err(e)` raises `TransportError(e)`
(00_scope.md R8, R9; 20_memory.md R29, R30). -/
def busCall (c : Call) : Op Byte := fun s =>
  match s.answerTo c with
  | .ok b => .ok b (s.afterCall c (.ok b))
  | .err e => .error e (s.afterCall c (.err e))

/-- `Write(a, v)`, raising on error (00_scope.md R8, R9; 20_memory.md R29). -/
def busWrite (a : DevAddr) (v : Byte) : Op Unit := do
  let _ ← busCall (.write a v)
  return ()

/-- `Read(a)`, raising on error (00_scope.md R8; 20_memory.md R30). -/
def busRead (a : DevAddr) : Op Byte := busCall (.read a)

/-- The state after a delay: the event has happened. -/
def State.afterDelay (s : State) (ms : Ms) : State := { s with trace := s.trace ++ [.delay ms] }

/-- `Delay(ms)`: an event with no duration that always returns (20_memory.md R31; log 13). -/
def delay (ms : Ms) : Op Unit := modify fun s => s.afterDelay ms

/-! ### The micro-operations -/

/-- `REG(v)` (40_sequencer.md R59). -/
def reg (v : Byte) : Op Unit := do
  let s ← get
  busWrite s.addr v
  delay s.params.tWrite

/-- `NIB(n)`: `BL` and `RS` are read once, when the strobe starts (40_sequencer.md R60). -/
def nib (n : Nibble) : Op Unit := do
  let s ← get
  let x := wire n s.bl 0 s.rs
  reg x
  reg (x ||| EN)
  reg x

/-- `BYTE(b, rs)`: `RS` first, then the high nibble, then the low nibble (40_sequencer.md R61). -/
def byteTransfer (b : Byte) (rs : Bit) : Op Unit := do
  modify fun s => s.setRs rs
  nib (highNibble b)
  nib (lowNibble b)

/-- `CMD(b) = BYTE(b, 0)` (40_sequencer.md R61). -/
def cmd (b : Byte) : Op Unit := byteTransfer b 0

/-- `DAT(b) = BYTE(b, 1)` (40_sequencer.md R61). -/
def dat (b : Byte) : Op Unit := byteTransfer b 1

/-! ### The raw nibbles of INIT -/

/-- One preamble nibble and its gap (41_lcd_ops.md R68). -/
def preambleNibble (n : Nibble) : Op Unit := do
  nib n
  delay Config.tInitGap

/-- `N_PRE3` as a number (00_scope.md R3). -/
def preambleCount : PreambleCount → Nat
  | .two => 2
  | .three => 3

/-- `repeat n times: NIB(0x3); Delay(T_INIT_GAP)` (41_lcd_ops.md R68). -/
def preamble3 : Nat → Op Unit
  | 0 => pure ()
  | n + 1 => do
    preambleNibble 0x3
    preamble3 n

/-! ### The probe -/

/-- `probe()` over the candidates that are left: the first that accepts, or none (42_address.md R77). -/
def probeFrom : List DevAddr → Op (Option DevAddr)
  | [] => pure none
  | a :: rest => do
    busWrite a patternOnes
    let r1 ← busRead a
    busWrite a patternZero
    let r2 ← busRead a
    if signatureMatches r1 r2 then pure (some a) else probeFrom rest

/-- `probe()` (42_address.md R77). -/
def probeBus : Op (Option DevAddr) := probeFrom candidates

/-! ### The emission of text -/

/-- Character `k` at the address `p`: a positioning command if it is needed, then the data byte (43_layout.md R88). -/
def emitChar (prev : Option Byte) (p : Byte) (t : Byte) : Op Unit := do
  if needsPosition prev p then cmd p
  dat t

/-- The loop of `emit` from character `k` on, `prev` being the address of the character before (43_layout.md R88). -/
def emitFrom (mode : WrapOtherRows) (col : Byte) (row : Row) : Nat → Option Byte → List Byte → Op Unit
  | _, _, [] => pure ()
  | k, prev, t :: rest => do
    emitChar prev (cellAddr mode k col row) t
    emitFrom mode col row (k + 1) (some (cellAddr mode k col row)) rest

/-- `emit(col, row, t)` (43_layout.md R88). -/
def emit (col : Byte) (row : Row) (text : List Byte) : Op Unit := do
  let s ← get
  match text with
  | [] => cmd (caddr col.toNat row)
  | t :: rest => emitFrom s.params.wrapOtherRows col row 0 none (t :: rest)

/-! ### How a request begins and ends -/

/-- Delivering a response ends the request and sets `SEQ <- IDLE` (60_exceptions.md R93; 10_state.md R22). -/
def State.respond (s : State) (r : Response) : State :=
  { s with replies := s.replies ++ [r], seq := .idle }

/-- `raise TransportError(e)`, the one way a request is cut short: `SEQ_BROKEN <- 1`, the error passed on unmodified,
nothing rolled back (60_exceptions.md R94, R99). There is no return from it: the next request is accepted as from any
other IDLE state (60_exceptions.md R100). -/
def State.raiseTransportError (s : State) (e : TransportError) : State :=
  s.breakSequence.respond { code := .transportError, value := 0, err := some e }

/-- The response to an illegal request: no event and no state change (60_exceptions.md R96; log 10). -/
def State.rejectIllegal (s : State) : State :=
  s.respond { code := .illegalRequest, value := 0, err := none }

/-- How a request ends: `respond(code, value)`, or the raised error (00_scope.md R8; 60_exceptions.md R94). -/
def settle (r : EStateM.Result TransportError State (Code × Byte)) : State :=
  match r with
  | .ok (code, value) s => s.respond { code := code, value := value, err := none }
  | .error e s => s.raiseTransportError e

/-- One request: accepted only when `SEQ = IDLE`, run to completion, answered with one response (10_state.md R22;
00_scope.md R2). Running it while `SEQ = BUSY` is refused (60_exceptions.md R105; log 8). -/
def request (body : Op (Code × Byte)) (s : State) : Outcome :=
  match s.seq with
  | .idle => .next (settle (body s.accept))
  | .busy => .refused .interleaved

end Sys2Proof.Machine
end

