-- ==== Sys2Proof/Machine/Address.lean ====
section
/-! DEFINITION. The requests SETADDR, PROBE and AUTODET (42_address.md R76, R80, R81). -/

namespace Sys2Proof.Machine

/-- `SETADDR addr`: no event (42_address.md R76). -/
def execSetaddr (addr : DevAddr) (s : State) : Outcome :=
  request (do modify fun s => s.setAddr addr; return (.ok, 0)) s

/-- `PROBE`: reports the result and writes no state (42_address.md R80). -/
def execProbe (s : State) : Outcome :=
  request (do
    match ← probeBus with
    | some a => return (.ok, a.setWidth 8)
    | none => return (.notFound, 0)) s

/-- `AUTODET`: writes `ADDR` when a device is found (42_address.md R81). -/
def execAutodet (s : State) : Outcome :=
  request (do
    match ← probeBus with
    | some a => do
      modify fun s => s.setAddr a
      return (.ok, a.setWidth 8)
    | none => return (.notFound, 0)) s

end Sys2Proof.Machine
end

