-- ==== Sys2Proof/Machine/Layout.lean ====
section
/-! DEFINITION. The requests SETCUR, PUTSTR and PUTNUM (43_layout.md R86, R89, R92). -/

namespace Sys2Proof.Machine

/-- `SETCUR col, row` (43_layout.md R86). -/
def execSetcur (col : Byte) (row : Row) (s : State) : Outcome :=
  request (do cmd (caddr col.toNat row); return (.ok, 0)) s

/-- `PUTSTR col, row, "text"` (43_layout.md R89). -/
def execPutstr (col : Byte) (row : Row) (text : List Byte) (s : State) : Outcome :=
  request (do emit col row text; return (.ok, 0)) s

/-- `PUTNUM col, row, n` (43_layout.md R92). -/
def execPutnum (col : Byte) (row : Row) (n : BitVec 32) (s : State) : Outcome :=
  request (do emit col row (dec n); return (.ok, 0)) s

end Sys2Proof.Machine
end

