-- ==== Sys2Proof/Machine/LcdOps.lean ====
section
/-! DEFINITION. The requests INIT, CLEAR, BKL, VIS, SHL and SHR (41_lcd_ops.md R68, R70 to R74). -/

namespace Sys2Proof.Machine

/-- `INIT addr` (41_lcd_ops.md R68). -/
def execInit (addr : DevAddr) (s : State) : Outcome :=
  request (do
    modify fun s => s.setAddr addr
    modify fun s => s.setRs 0
    preamble3 (preambleCount s.params.nPre3)
    preambleNibble 0x2
    cmd 0x28
    cmd 0x0C
    cmd 0x06
    cmd 0x01
    return (.ok, 0)) s

/-- `CLEAR` (41_lcd_ops.md R70). -/
def execClear (s : State) : Outcome :=
  request (do cmd 0x01; return (.ok, 0)) s

/-- `BKL f` (41_lcd_ops.md R71). -/
def execBkl (f : Bit) (s : State) : Outcome :=
  request (do modify fun s => s.setBl f; cmd 0x00; return (.ok, 0)) s

/-- `VIS f` (41_lcd_ops.md R72). -/
def execVis (f : Bit) (s : State) : Outcome :=
  request (do cmd (if f = 1 then 0x0C else 0x08); return (.ok, 0)) s

/-- `SHL` (41_lcd_ops.md R73). -/
def execShl (s : State) : Outcome :=
  request (do cmd 0x18; return (.ok, 0)) s

/-- `SHR` (41_lcd_ops.md R74). -/
def execShr (s : State) : Outcome :=
  request (do cmd 0x1C; return (.ok, 0)) s

end Sys2Proof.Machine
end

