-- ==== Sys2Proof/Machine/Sequencer.lean ====
section
/-! DEFINITION. The requests WCMD and WDAT (40_sequencer.md R64, R65). -/

namespace Sys2Proof.Machine

/-- `WCMD byte` (40_sequencer.md R64). -/
def execWcmd (byte : Byte) (s : State) : Outcome :=
  request (do cmd byte; return (.ok, 0)) s

/-- `WDAT byte` (40_sequencer.md R65). -/
def execWdat (byte : Byte) (s : State) : Outcome :=
  request (do dat byte; return (.ok, 0)) s

end Sys2Proof.Machine
end

