-- ==== Sys2Proof/Machine/Dispatch.lean ====
section
/-! DEFINITION. The meaning of each request: one arm for each row of the opcode table (30_encoding.md R49). -/

namespace Sys2Proof.Machine

def exec (i : Instr) (s : State) : Host.Outcome State Fault Refusal :=
  match i with
  | .init addr => Sys2Proof.Machine.execInit addr s
  | .setaddr addr => Sys2Proof.Machine.execSetaddr addr s
  | .autodet => Sys2Proof.Machine.execAutodet s
  | .probe => Sys2Proof.Machine.execProbe s
  | .clear => Sys2Proof.Machine.execClear s
  | .bkl f => Sys2Proof.Machine.execBkl f s
  | .vis f => Sys2Proof.Machine.execVis f s
  | .shl => Sys2Proof.Machine.execShl s
  | .shr => Sys2Proof.Machine.execShr s
  | .wcmd byte => Sys2Proof.Machine.execWcmd byte s
  | .wdat byte => Sys2Proof.Machine.execWdat byte s
  | .setcur col row => Sys2Proof.Machine.execSetcur col row s
  | .putstr col row text => Sys2Proof.Machine.execPutstr col row text s
  | .putnum col row n => Sys2Proof.Machine.execPutnum col row n s

end Sys2Proof.Machine
end

