-- ==== Sys2Proof/Machine/Port.lean ====
section
/-! DEFINITION. The request port (10_state.md R22; 20_memory.md R40; log 2). -/

namespace Sys2Proof.Machine

/-- The request the block would accept now, with those that wait behind it: the oldest one when `SEQ = IDLE`, none while
`SEQ = BUSY` (10_state.md R22). -/
def State.nextRequest (s : State) : Option (Request × List Request) :=
  match s.seq, s.port with
  | .idle, q :: rest => some (q, rest)
  | .idle, [] => none
  | .busy, _ => none

/-- The port after a request has been taken from it. -/
def State.withPort (s : State) (rest : List Request) : State := { s with port := rest }

/-- A request put at the head of the port of a block that is ready to accept it (log 7). -/
def State.offer (s : State) (q : Request) : State := { s with seq := .idle, port := q :: s.port }

end Sys2Proof.Machine
end

