-- ==== Sys2Proof/Machine/Step.lean ====
section
/-! DEFINITION. One step: the block accepts the oldest waiting request and runs it to completion (00_scope.md R2;
10_state.md R22; log 1, log 2). -/

namespace Sys2Proof.Machine

/-- One step of the machine. An idle block with a request at its port accepts it: a legal request is run by `exec`, an
illegal one gets its response (60_exceptions.md R96, R98). With nothing at the port the block waits in `SEQ = IDLE`
(60_exceptions.md R107; 70_reset_and_hazards.md R108; log 2), and while `SEQ = BUSY` "the request port accepts nothing:
the host's next request waits" (10_state.md R22; log 8). -/
def step (s : State) : Host.Outcome State Fault Refusal :=
  match s.nextRequest with
  | none => .next s
  | some (q, rest) =>
    match decode q with
    | some i => exec i (s.withPort rest)
    | none => .next (s.withPort rest).rejectIllegal

/-- `s` with the request of the table's bits `w` next at its port and the block ready to accept it (log 7): the very next
step runs it. The other waiting requests stay behind it. -/
def State.withFetchWord (s : State) (nbits w : Nat) : State :=
  s.offer (tableRequest nbits w)

end Sys2Proof.Machine
end

