-- ==== Sys2Proof/Safety.lean ====
section
/-! DEFINITION. The terms in which claims about the block are stated: what the transport answers, the traces that the spec
writes out, what a falling edge of E latches, where text lands, and the invariants of the machine. Nothing here is used by
the machine. -/

namespace Sys2Proof.Machine

/-! ### What the transport answers -/

/-- The transport's next `n` answers are all `ok` (20_memory.md R29, R30). -/
def State.grants (s : State) (n : Nat) : Prop :=
  ∀ j, j < n → ∃ d, s.bus[j]? = some (.ok d)

/-- The transport answers `ok` to the next `k` calls and then `err(e)`. -/
def State.failsAt (s : State) (k : Nat) (e : TransportError) : Prop :=
  s.grants k ∧ s.bus[k]? = some (.err e)

/-- The byte of the transport's answer `k` (counting from 0), where it is `ok`. -/
def State.busByte (s : State) (k : Nat) : Byte :=
  match s.bus[k]? with
  | some (.ok d) => d
  | some (.err _) => 0
  | none => 0

/-- An event that is a call of the transport, not a delay. -/
def isCall : Event → Bool
  | .write _ _ => true
  | .read _ _ => true
  | .delay _ => false

/-- How many calls of the transport a piece of a trace holds. -/
def callCount (evs : List Event) : Nat := evs.countP isCall

/-- A trace cut short at its call number `k` (counting from 0): every event up to that call, the call included
(40_sequencer.md R63; 60_exceptions.md R99). -/
def cutAfterCall : Nat → List Event → List Event
  | _, [] => []
  | k, .delay ms :: rest => .delay ms :: cutAfterCall k rest
  | 0, .write a v :: _ => [.write a v]
  | 0, .read a r :: _ => [.read a r]
  | k + 1, .write a v :: rest => .write a v :: cutAfterCall k rest
  | k + 1, .read a r :: rest => .read a r :: cutAfterCall k rest

/-- The state after a request that emitted `evs` and was answered `r`, everything else as in `s`. -/
def State.afterEvents (s : State) (evs : List Event) (r : Response) : State :=
  { s with bus := s.bus.drop (callCount evs), trace := s.trace ++ evs, replies := s.replies ++ [r] }

/-- The response `(OK, value)` (60_exceptions.md R93). -/
def okReply (value : Byte) : Response := ⟨.ok, value, none⟩

/-- The response `(NOT_FOUND, 0)` (60_exceptions.md R93). -/
def notFoundReply : Response := ⟨.notFound, 0, none⟩

/-- The response `(TRANSPORT_ERROR, 0, e)` (60_exceptions.md R93). -/
def errorReply (e : TransportError) : Response := ⟨.transportError, 0, some e⟩

/-- The response `(ILLEGAL_REQUEST, 0)` (60_exceptions.md R93). -/
def illegalReply : Response := ⟨.illegalRequest, 0, none⟩

/-! ### The traces that the spec writes out -/

/-- `m = BLmask | rs` (40_sequencer.md R62). -/
def lineMask (bl rs : Bit) : Byte := (if bl = 1 then 0x08 else 0x00) ||| (if rs = 1 then 0x01 else 0x00)

/-- The six events of a strobe whose first byte is `x`, the pause being `t` (40_sequencer.md R60, R62). -/
def strobeEvents (a : DevAddr) (t : Ms) (x : Byte) : List Event :=
  [.write a x, .delay t, .write a (x ||| 0x04), .delay t, .write a x, .delay t]

/-- The twelve events of `BYTE(b, rs)` to the device `a` (40_sequencer.md R62). -/
def byteEvents (a : DevAddr) (t : Ms) (bl : Bit) (b : Byte) (rs : Bit) : List Event :=
  strobeEvents a t ((b &&& 0xF0) ||| lineMask bl rs) ++ strobeEvents a t (((b &&& 0x0F) <<< 4) ||| lineMask bl rs)

/-- The events of a list of byte transfers, each a controller byte with its `RS`. -/
def transferEvents (a : DevAddr) (t : Ms) (bl : Bit) (l : List (Byte × Bit)) : List Event :=
  l.flatMap fun x => byteEvents a t bl x.1 x.2

/-- One raw nibble of INIT's preamble, given as it stands in wire bits [7:4], and its gap (41_lcd_ops.md R68). -/
def rawNibbleEvents (a : DevAddr) (t : Ms) (bl : Bit) (n : Byte) : List Event :=
  strobeEvents a t (n ||| lineMask bl 0) ++ [.delay 5]

/-- The trace of a successful INIT with `n` raw 0x3 nibbles (41_lcd_ops.md R68, R69). -/
def initEvents (a : DevAddr) (t : Ms) (bl : Bit) (n : Nat) : List Event :=
  (List.replicate n (rawNibbleEvents a t bl 0x30)).flatten ++ rawNibbleEvents a t bl 0x20 ++
    transferEvents a t bl [(0x28, 0), (0x0C, 0), (0x06, 0), (0x01, 0)]

/-- Candidate number `i` of the probe, counting from 0: 0x20 to 0x27, then 0x38 to 0x3F (42_address.md R77). -/
def candidateAddr (i : Nat) : DevAddr := if i < 8 then BitVec.ofNat 7 (0x20 + i) else BitVec.ofNat 7 (0x30 + i)

/-- Candidate `i` accepts, on the answers the transport is going to give (42_address.md R77, R79). -/
def State.candidateAccepts (s : State) (i : Nat) : Prop :=
  (s.busByte (4 * i + 1)).toNat % 16 = 7 ∧ s.busByte (4 * i + 3) = 0x00

/-- The four events of candidate `i`, every call answered `ok` (42_address.md R78). -/
def State.candidateEvents (s : State) (i : Nat) : List Event :=
  [.write (candidateAddr i) 0xFF, .read (candidateAddr i) (.ok (s.busByte (4 * i + 1))),
   .write (candidateAddr i) 0x00, .read (candidateAddr i) (.ok (s.busByte (4 * i + 3)))]

/-- The events of the first `n` candidates (42_address.md R78). -/
def State.probeEvents (s : State) (n : Nat) : List Event := (List.range n).flatMap s.candidateEvents

/-- The probe's call number `k`, counting from 0, answered `err(e)` (42_address.md R77). -/
def failedProbeCall (k : Nat) (e : TransportError) : Event :=
  if k % 4 = 0 then .write (candidateAddr (k / 4)) 0xFF
  else if k % 4 = 2 then .write (candidateAddr (k / 4)) 0x00
  else .read (candidateAddr (k / 4)) (.err e)

/-- The command byte for column `c` of row `r`, `(ROW_BASE[r] + c) mod 256`, written out from 43_layout.md R83 and not
through the machine's own `caddr`. -/
def rowColumnByte (c : Nat) (r : Row) : Byte := BitVec.ofNat 8 (([0x80, 0xC0, 0x94, 0xD4].getD r.toNat 0 + c) % 256)

/-- The command byte that addresses the cell of character `k` of a string started at `(col, row)`, written out from the
prose of 43_layout.md R87 and not through the machine's own `place`. -/
def cellByte (mode : WrapOtherRows) (col : Byte) (row : Row) (k : Nat) : Byte :=
  if k = 0 then rowColumnByte col.toNat row
  else if row = 0 then
    if col.toNat + k < 16 then rowColumnByte (col.toNat + k) 0
    else if col.toNat < 16 then rowColumnByte (col.toNat + k - 16) 1
    else rowColumnByte (k - 1) 1
  else if mode = .row0Literal then rowColumnByte (col.toNat + k) 0
  else rowColumnByte (col.toNat + k) row

/-- Character `k` of a string needs a positioning command: it is character 0, or its address is not one more than that of
the character before (43_layout.md R88). -/
def startsRun (mode : WrapOtherRows) (col : Byte) (row : Row) (k : Nat) : Bool :=
  k == 0 || cellByte mode col row k != cellByte mode col row (k - 1) + 1

/-- `P`, the number of positioning commands of a text of `len` characters: one for the empty text (43_layout.md R88, R89). -/
def positionings (mode : WrapOtherRows) (col : Byte) (row : Row) (len : Nat) : Nat :=
  if len = 0 then 1 else (List.range len).countP (startsRun mode col row)

/-- The byte transfers of character `k`, which is `t` (43_layout.md R88). -/
def charTransfers (mode : WrapOtherRows) (col : Byte) (row : Row) (k : Nat) (t : Byte) : List (Byte × Bit) :=
  (if startsRun mode col row k then [(cellByte mode col row k, 0)] else []) ++ [(t, 1)]

/-- The byte transfers of `emit(col, row, text)`: a controller byte with its `RS` each (43_layout.md R88). -/
def textTransfers (mode : WrapOtherRows) (col : Byte) (row : Row) (text : List Byte) : List (Byte × Bit) :=
  if text = [] then [(rowColumnByte col.toNat row, 0)]
  else text.zipIdx.flatMap fun x => charTransfers mode col row x.2 x.1

/-- The byte transfers of a request that is made of byte transfers alone; none for the requests that are not (INIT, and
the requests of the address unit) (30_encoding.md R54, R58). -/
def transfersOf (mode : WrapOtherRows) : Instr → Option (List (Byte × Bit))
  | .wcmd b => some [(b, 0)]
  | .wdat b => some [(b, 1)]
  | .clear => some [(0x01, 0)]
  | .bkl _ => some [(0x00, 0)]
  | .vis f => some [(if f = 1 then 0x0C else 0x08, 0)]
  | .shl => some [(0x18, 0)]
  | .shr => some [(0x1C, 0)]
  | .setcur col row => some [(rowColumnByte col.toNat row, 0)]
  | .putstr col row text => some (textTransfers mode col row text)
  | .putnum col row n => some (textTransfers mode col row (dec n))
  | .init _ => none
  | .setaddr _ => none
  | .autodet => none
  | .probe => none

/-- `BL` while the events of a request are emitted: the operand of BKL, else what it was (41_lcd_ops.md R71). -/
def backlightDuring (i : Instr) (bl : Bit) : Bit :=
  match i with
  | .bkl f => f
  | .wcmd _ | .wdat _ | .clear | .vis _ | .shl | .shr | .setcur _ _ | .putstr _ _ _ | .putnum _ _ _ | .init _
  | .setaddr _ | .autodet | .probe => bl

/-- `exec i s` sends the byte transfers `l`, starting from `s0` (the state `s` after what the request writes before its
first event). If the transport answers `ok` to all `6 * l.length` writes, the whole trace of the transfers is emitted, `RS`
is that of the last transfer, and the response is OK with value 0. If it answers `err(e)` to write number `k`, the trace
ends at that write, `RS` is that of the transfer the write belongs to, `SEQ_BROKEN` is set, and the response is
TRANSPORT_ERROR with `e`. Everything else is as in `s0` (40_sequencer.md R62, R63; 60_exceptions.md R94). -/
def SendsTransfers (i : Instr) (s s0 : State) (l : List (Byte × Bit)) : Prop :=
  (s.grants (6 * l.length) →
    exec i s = .next ({ s0 with rs := (l.getLastD (0, 0)).2 }.afterEvents
      (transferEvents s0.addr s0.params.tWrite s0.bl l) (okReply 0))) ∧
  (∀ k e, k < 6 * l.length → s.failsAt k e →
    exec i s = .next ({ s0 with rs := (l.getD (k / 6) (0, 0)).2, seqBroken := true }.afterEvents
      (cutAfterCall k (transferEvents s0.addr s0.params.tWrite s0.bl l)) (errorReply e)))

/-- A request that probes: PROBE or AUTODET. -/
def isProber : Instr → Bool
  | .probe | .autodet => true
  | .init _ | .setaddr _ | .clear | .bkl _ | .vis _ | .shl | .shr | .wcmd _ | .wdat _ | .setcur _ _ | .putstr _ _ _
  | .putnum _ _ _ => false

/-! ### What the lines do at the display (20_memory.md R36; log 15) -/

/-- The nibbles, with their `RS`, that a sequence of wire bytes latches: one at each falling edge of E, taken from the
byte before the edge. `prev` is the byte on the lines before. "A falling edge of the E line latches a nibble"
(20_memory.md R36). -/
def latched : Byte → List Byte → List (Nibble × Bit)
  | _, [] => []
  | prev, v :: rest =>
    (if prev &&& 0x04 = 0x04 ∧ v &&& 0x04 = 0x00 then [(prev.extractLsb' 4 4, prev.extractLsb' 0 1)] else []) ++
      latched v rest

/-- The bytes that a piece of a trace writes to the device `a`, in order. `Read` events are passed over: read as what stands on
the device's lines, this takes a read to leave them as they are, where the spec leaves open what a read does to the device
(20_memory.md R36). DESIGN CHOICE (log 16, unsafe as a claim about the lines of a probed device). -/
def bytesTo (a : DevAddr) : List Event → List Byte
  | [] => []
  | .write b v :: rest => if b = a then v :: bytesTo a rest else bytesTo a rest
  | .read _ _ :: rest => bytesTo a rest
  | .delay _ :: rest => bytesTo a rest

/-- The nibbles of a list of byte transfers: high nibble first (40_sequencer.md R61). -/
def nibblesOf (l : List (Byte × Bit)) : List (Nibble × Bit) :=
  l.flatMap fun x => [(x.1.extractLsb' 4 4, x.2), (x.1.extractLsb' 0 4, x.2)]

/-- The controller bytes that nibbles make, two nibbles each, the high one first, with the register select of the
high one (40_sequencer.md R61; log 15). -/
def bytesOfNibbles : List (Nibble × Bit) → List (Byte × Bit)
  | [] => []
  | [_] => []
  | high :: low :: rest => (high.1 ++ low.1, high.2) :: bytesOfNibbles rest

/-- The controller bytes, with their register select, that the bytes a piece of a trace writes to the device `a` encode, by
the falling edges of E, `prev` being the byte on the lines before (log 15). It decodes the wire; that a controller takes
these bytes is claimed only where `State.DisplayReady` holds (70_reset_and_hazards.md R110). -/
def readBack (prev : Byte) (a : DevAddr) (evs : List Event) : List (Byte × Bit) :=
  bytesOfNibbles (latched prev (bytesTo a evs))

/-- The cells that a list of byte transfers fills, by the command byte that addresses each: a command sets the address, a
data byte goes to the address and advances it by one (43_layout.md R88: "the controller's cursor advances by one after each
data byte"). It counts addresses for columns past 15 as for the others: DESIGN CHOICE (log 18, unsafe as a claim about what a
display shows there). -/
def placedCells : Byte → List (Byte × Bit) → List (Byte × Byte)
  | _, [] => []
  | cursor, (b, rs) :: rest => if rs = 1 then (cursor, b) :: placedCells (cursor + 1) rest else placedCells b rest

/-! ### When something may be claimed of the display (70_reset_and_hazards.md R110; 10_state.md R21; log 15) -/

/-- The command bytes that 30_encoding.md R54 names with their meaning, the addresses apart. None but INIT's own 0x06 sets
the entry mode. -/
def namedCommands : List Byte := [0x28, 0x0C, 0x06, 0x01, 0x08, 0x00, 0x18, 0x1C]

/-- Every command byte of a request's transfers is one that R54 names or an address of 0x80 or more; so the request sends
nothing that changes the entry mode through WCMD (43_layout.md R89) or through a wrapped address (R85). -/
def commandsNamed (mode : WrapOtherRows) (i : Instr) : Prop :=
  ∀ l, transfersOf mode i = some l → ∀ x ∈ l, x.2 = 0 → x.1 ∈ namedCommands ∨ 0x80 ≤ x.1.toNat

/-- Between the states `s` and `t`, the request `i` does not disturb the controller behind the device `a`, unless it ends in
TRANSPORT_ERROR: it is no INIT of `a`, sends it no command without a name, and is no probe that writes to it
(70_reset_and_hazards.md R118). -/
def sparesDevice (a : DevAddr) (i : Instr) (s t : State) : Prop :=
  i ≠ .init a ∧ (s.addr = a → commandsNamed s.params.wrapOtherRows i) ∧
  (isProber i = true → ∀ evs, t.trace = s.trace ++ evs → bytesTo a evs = [])

/-- "A successful INIT was the last request that initialised the controller" behind the device `a`, and no later request
has disturbed it (70_reset_and_hazards.md R110, R118). Between two steps the host and the transport may change the inputs. -/
inductive InitialisedAt (a : DevAddr) : State → Prop where
  | init {s t : State} {q : Request} {rest : List Request} (request : s.nextRequest = some (q, rest))
      (decoded : decode q = some (.init a)) (stepped : step s = .next t) (answered : t.replies = s.replies ++ [okReply 0]) :
      InitialisedAt a t
  | later {s t : State} (before : InitialisedAt a s) (stepped : step s = .next t)
      (spared : ∀ q rest i, s.nextRequest = some (q, rest) → decode q = some i → sparesDevice a i (s.withPort rest) t) :
      InitialisedAt a t
  | inputs {s : State} (port : List Request) (bus : List Answer) (before : InitialisedAt a s) :
      InitialisedAt a { s with port := port, bus := bus }

/-- The premise of every claim about the display: the controller behind `ADDR` stands initialised, and `SEQ_BROKEN = 0`
(70_reset_and_hazards.md R110; 10_state.md R21). It puts no bound on `T_WRITE`: DESIGN CHOICE (log 17, unsafe as a claim
about a display whose `T_WRITE` is 0 or too short for it; R112). -/
def State.DisplayReady (s : State) : Prop := InitialisedAt s.addr s ∧ s.seqBroken = false

/-! ### Numbers -/

/-- The number that a list of ASCII digits spells, most significant first. -/
def digitsValue (l : List Byte) : Nat := l.foldl (fun acc b => 10 * acc + (b.toNat - 0x30)) 0

/-- The sum of the arguments of the delays of a piece of a trace (70_reset_and_hazards.md R121). -/
def delaySum : List Event → Nat
  | [] => 0
  | .delay ms :: rest => ms.toNat + delaySum rest
  | .write _ _ :: rest => delaySum rest
  | .read _ _ :: rest => delaySum rest

/-- How many events of a piece of a trace are writes. -/
def writeCount (evs : List Event) : Nat :=
  evs.countP fun e => match e with
    | .write _ _ => true
    | .read _ _ => false
    | .delay _ => false

/-- How many events of a piece of a trace are reads. -/
def readCount (evs : List Event) : Nat :=
  evs.countP fun e => match e with
    | .write _ _ => false
    | .read _ _ => true
    | .delay _ => false

/-- How many events of a piece of a trace are delays. -/
def delayCount (evs : List Event) : Nat :=
  evs.countP fun e => match e with
    | .write _ _ => false
    | .read _ _ => false
    | .delay _ => true

/-- `exec i s` is answered with the code `c`, and the events it adds are `w` writes, `r` reads and `d` delays whose arguments
sum to `ms` (70_reset_and_hazards.md R121). -/
def Costs (i : Instr) (s : State) (c : Code) (w r d ms : Nat) : Prop :=
  ∃ t evs resp, exec i s = .next t ∧ t.replies = s.replies ++ [resp] ∧ resp.code = c ∧ t.trace = s.trace ++ evs ∧
    writeCount evs = w ∧ readCount evs = r ∧ delayCount evs = d ∧ delaySum evs = ms

/-! ### Invariants -/

/-- `SEQ_BROKEN` records exactly whether some request has ended in TRANSPORT_ERROR (10_state.md R21). -/
def State.BrokenRecorded (s : State) : Prop :=
  s.seqBroken = s.replies.any fun r => decide (r.code = .transportError)

/-- An event that the block can emit: a wire byte with bit 1 zero to any device, the probe's 0xFF to a candidate, a read
of a candidate, the per-write pause or the init gap (00_scope.md R6; 10_state.md R19; 30_encoding.md R53;
42_address.md R77). -/
def eventAllowed (p : Params) : Event → Prop
  | .write a v => v.getLsbD 1 = false ∨ (a ∈ candidates ∧ v = 0xFF)
  | .read a _ => a ∈ candidates
  | .delay ms => ms = p.tWrite ∨ ms = 5

/-- Every event of the trace is one the block can emit. -/
def State.TraceAllowed (s : State) : Prop := ∀ e ∈ s.trace, eventAllowed s.params e

end Sys2Proof.Machine
end

