-- ==== Sys2Proof/Certificates/Slice0/Obligations.lean ====
section
/-! DEFINITION. The statements about the block, for the provers. -/

open Sys2Proof Sys2Proof.Machine

/-! ### Encoding -/

/-- 30_encoding.md R46, R47, R57: encoding a legal request and decoding it gives it back, with every operand and the
payload. -/
def Obligations.DecodeOfEncode : Prop :=
  ∀ i : Instr, i.wf = true → decode (encode i) = some i

/-- 30_encoding.md R50: a word plus payload that decodes is exactly one legal request, and is that request's own encoding. -/
def Obligations.EncodeOfDecode : Prop :=
  ∀ (q : Request) (i : Instr), decode q = some i → encode i = q ∧ i.wf = true

/-- 30_encoding.md R49: "A word is legal for a row iff `(W & mask) == match`", and no word is legal for two rows. A word is
legal for a row if, with some payload of its kind, it decodes to the row's operation. -/
def Obligations.LegalWordsAreTheTableRows : Prop :=
  (∀ (w : RequestWord) (r : OpRow), r ∈ opcodeTable →
    ((∃ q i, q.word = w ∧ decode q = some i ∧ i.mnemonic = r.mnemonic) ↔ w &&& r.mask = r.matchBits)) ∧
  (∀ (q : Request) (i : Instr), decode q = some i → ∃ r ∈ opcodeTable, r.mnemonic = i.mnemonic) ∧
  (∀ (w : RequestWord) (r r' : OpRow), r ∈ opcodeTable → r' ∈ opcodeTable →
    w &&& r.mask = r.matchBits → w &&& r'.mask = r'.matchBits → r = r')

/-- 60_exceptions.md R96: a request that decode rejects, when the idle block takes it from its port, gets the response
ILLEGAL_REQUEST with no event and no state change; and 30_encoding.md R50, R55: decode rejects every reserved and illegal
form. Two clauses are the model's choice: that the rejected request leaves the list at the port (log 2), and that it is
answered, where R96 also lets a model refuse it (log 10). -/
def Obligations.IllegalFormsGetNoEffect : Prop :=
  (∀ (s : State) (q : Request) (rest : List Request), s.seq = .idle → s.port = q :: rest → decode q = none →
    step s = .next { s with port := rest, replies := s.replies ++ [⟨.illegalRequest, 0, none⟩] }) ∧
  (∀ q : Request,
    (q.word.extractLsb' 28 4 = 0x0 ∨ q.word.extractLsb' 28 4 = 0xF ∨ q.word.extractLsb' 16 12 ≠ 0 ∨
      (∃ m, mnemonicOf (q.word.extractLsb' 28 4) = some m ∧
        ((m.format = .z ∧ q.word.extractLsb' 0 16 ≠ 0) ∨
         (m.format = .ad ∧ (q.word.extractLsb' 15 1 ≠ 0 ∨ q.word.extractLsb' 0 8 ≠ 0)) ∨
         (m.format = .f ∧ (q.word.extractLsb' 8 8 ≠ 0 ∨ q.word.extractLsb' 1 7 ≠ 0)) ∨
         (m.format = .byt ∧ q.word.extractLsb' 8 8 ≠ 0) ∨
         ((m.format = .cr ∨ m.format = .crt ∨ m.format = .crn) ∧ q.word.extractLsb' 2 6 ≠ 0) ∨
         (m = .putstr ∧ ∃ t, q.payload = .text t ∧ 255 < t.length)))) →
    decode q = none)

/-- 30_encoding.md R48, R49, R57: words written out from the spec's encoding decode to the requests they stand for, one for
each operand format and each family. -/
def Obligations.WrittenWordsDecode : Prop :=
  decode (.mk 0b00010000000000000010011100000000#32 .empty) = some (.init 0x27) ∧
  decode (.mk 0b00100000000000000011111100000000#32 .empty) = some (.setaddr 0x3F) ∧
  decode (.mk 0b00110000000000000000000000000000#32 .empty) = some .autodet ∧
  decode (.mk 0b01100000000000000000000000000001#32 .empty) = some (.bkl 1) ∧
  decode (.mk 0b10110000000000000000000001000001#32 .empty) = some (.wdat 0x41) ∧
  decode (.mk 0b11000000000000000000010100000010#32 .empty) = some (.setcur 5 2) ∧
  decode (.mk 0b11010000000000000000111000000000#32 (.text [0x58, 0x59, 0x5A])) = some (.putstr 14 0 [0x58, 0x59, 0x5A]) ∧
  decode (.mk 0b11100000000000000000000000000001#32 (.number (BitVec.ofInt 32 (-12)))) =
    some (.putnum 0 1 (BitVec.ofInt 32 (-12)))

/-! ### The port, the step and reset -/

/-- 10_state.md R22, 20_memory.md R40: an idle block whose oldest waiting request decodes to `i` steps by running `i`, with
that request taken from the port and the later ones left in their order. -/
def Obligations.StepRunsTheDecodedRequest : Prop :=
  ∀ (s : State) (q : Request) (rest : List Request) (i : Instr), s.seq = .idle → s.port = q :: rest →
    decode q = some i → step s = exec i { s with port := rest }

/-- 10_state.md R22: while `SEQ = BUSY` the port accepts nothing: the waiting requests stay, neither dropped nor merged,
and running a request is refused (60_exceptions.md R105). An idle block with no request waits (60_exceptions.md R107). The
stutter of the step is the model's choice (log 2, log 8). -/
def Obligations.BusyOrEmptyPortAcceptsNothing : Prop :=
  (∀ s : State, s.seq = .busy → step s = .next s) ∧
  (∀ (i : Instr) (s : State), s.seq = .busy → exec i s = .refused .interleaved) ∧
  (∀ s : State, s.seq = .idle → s.port = [] → step s = .next s)

/-- 60_exceptions.md R93, 10_state.md R22: every request run from `IDLE` completes, whatever the transport answers: the
next state is `IDLE` again, has exactly one response more, has lost no waiting request, and its trace extends the old one. -/
def Obligations.EveryRequestEndsWithOneResponse : Prop :=
  ∀ (i : Instr) (s : State), s.seq = .idle →
    ∃ t r evs, exec i s = .next t ∧ t.seq = .idle ∧ t.replies = s.replies ++ [r] ∧ t.port = s.port ∧
      t.params = s.params ∧ t.trace = s.trace ++ evs

/-- 60_exceptions.md R93: the table of response codes. What the response of a legal request may be: OK, with a candidate's
address for a probe and 0 for any other request; TRANSPORT_ERROR, with value 0 and the only one to carry an error, and never
for SETADDR; NOT_FOUND with value 0, only for a probe. An illegal request gets ILLEGAL_REQUEST with value 0; that it is
answered, where R96 also lets a model refuse it, is the model's choice (log 10). -/
def Obligations.ResponseTable : Prop :=
  Code.ok.bits = 0 ∧ Code.transportError.bits = 1 ∧ Code.notFound.bits = 2 ∧ Code.illegalRequest.bits = 3 ∧
  (∀ (i : Instr) (s t : State), exec i s = .next t → ∃ r, t.replies = s.replies ++ [r] ∧
    ((r.code = .ok ∧ r.err = none ∧ isProber i = false ∧ r.value = 0) ∨
     (r.code = .ok ∧ r.err = none ∧ isProber i = true ∧ ∃ a ∈ candidates, r.value = a.setWidth 8) ∨
     (r.code = .transportError ∧ r.value = 0 ∧ r.err ≠ none ∧ ∀ a, i ≠ .setaddr a) ∨
     (r.code = .notFound ∧ r.value = 0 ∧ r.err = none ∧ isProber i = true))) ∧
  (∀ (s : State) (q : Request) (rest : List Request), s.seq = .idle → s.port = q :: rest → decode q = none →
    ∃ t, step s = .next t ∧ t.replies = s.replies ++ [⟨.illegalRequest, 0, none⟩])

/-- 60_exceptions.md R93, R100, with the model's choices: the machine never stops: every state has a next state. That a
legal request ends in a next state is R93's and R100's. The other clauses are the model's choice: an idle state with an
empty port steps to itself (log 2), a BUSY state steps to itself (log 8), and an illegal word is answered rather than
refused (log 10). -/
def Obligations.EveryStepHasANextState : Prop :=
  ∀ s : State, ∃ t, step s = .next t

/-- 10_state.md R25: the power-on state for every platform, and no event emitted. -/
def Obligations.PowerOnState : Prop :=
  (∀ p : Params, (State.powerOn p).addr = p.addrDefault ∧ (State.powerOn p).bl = p.blReset ∧
    (State.powerOn p).rs = 0 ∧ (State.powerOn p).seqBroken = false ∧ (State.powerOn p).seq = .idle ∧
    (State.powerOn p).trace = []) ∧
  State.reset.addr = Config.addrDefault ∧ State.reset.bl = 1 ∧ State.reset.rs = 0 ∧
  State.reset.seqBroken = false ∧ State.reset.seq = .idle ∧ State.reset.trace = []

/-! ### The wire byte and the micro-operations -/

/-- 30_encoding.md R51: "bits [7:4] = data nibble, bit 3 = backlight, bit 2 = enable strobe, bit 0 = register-select; bit 1
unused/zero". -/
def Obligations.WireByteLayout : Prop :=
  ∀ (n : Nibble) (bl e rs : Bit),
    (wire n bl e rs).extractLsb' 4 4 = n ∧ (wire n bl e rs).extractLsb' 3 1 = bl ∧
    (wire n bl e rs).extractLsb' 2 1 = e ∧ (wire n bl e rs).extractLsb' 1 1 = 0 ∧
    (wire n bl e rs).extractLsb' 0 1 = rs

/-- 30_encoding.md R53: the bytes that `wire` gives are exactly those with bit 1 zero. -/
def Obligations.WireBytesAreThoseWithBitOneZero : Prop :=
  ∀ v : Byte, (∃ n bl e rs, wire n bl e rs = v) ↔ v.extractLsb' 1 1 = 0

/-- 40_sequencer.md R59: REG writes one byte to `ADDR` and then pauses; after a failed write there is no pause and the
error is raised. The statement is about any answer of the transport. -/
def Obligations.RegisterWrite : Prop :=
  ∀ (s : State) (v : Byte),
    (∀ d, s.answerTo (.write s.addr v) = .ok d →
      reg v s = .ok () { s with bus := s.bus.tail, trace := s.trace ++ [.write s.addr v, .delay s.params.tWrite] }) ∧
    (∀ e, s.answerTo (.write s.addr v) = .err e →
      reg v s = .error e { s with bus := s.bus.tail, trace := s.trace ++ [.write s.addr v] })

/-- 40_sequencer.md R60: the nibble strobe writes `x`, `x | EN`, `x`, each with its pause, where `x` carries the nibble,
`BLmask`, `RS` and E = 0; nothing else of the state changes. -/
def Obligations.NibbleStrobe : Prop :=
  ∀ (s : State) (n : Nibble), s.grants 3 →
    nib n s = .ok () { s with
      bus := s.bus.drop 3
      trace := s.trace ++
        [.write s.addr (n.setWidth 8 <<< 4 ||| lineMask s.bl s.rs), .delay s.params.tWrite,
         .write s.addr (n.setWidth 8 <<< 4 ||| lineMask s.bl s.rs ||| 0x04), .delay s.params.tWrite,
         .write s.addr (n.setWidth 8 <<< 4 ||| lineMask s.bl s.rs), .delay s.params.tWrite] }

/-- 40_sequencer.md R62: the twelve events of a byte transfer whose writes all succeed, and `RS <- rs` its only state
change. -/
def Obligations.ByteTransferTrace : Prop :=
  ∀ (s : State) (b : Byte) (rs : Bit), s.grants 6 →
    byteTransfer b rs s = .ok () { s with
      rs := rs
      bus := s.bus.drop 6
      trace := s.trace ++
        [.write s.addr ((b &&& 0xF0) ||| lineMask s.bl rs), .delay s.params.tWrite,
         .write s.addr ((b &&& 0xF0) ||| lineMask s.bl rs ||| 0x04), .delay s.params.tWrite,
         .write s.addr ((b &&& 0xF0) ||| lineMask s.bl rs), .delay s.params.tWrite,
         .write s.addr (((b &&& 0x0F) <<< 4) ||| lineMask s.bl rs), .delay s.params.tWrite,
         .write s.addr (((b &&& 0x0F) <<< 4) ||| lineMask s.bl rs ||| 0x04), .delay s.params.tWrite,
         .write s.addr (((b &&& 0x0F) <<< 4) ||| lineMask s.bl rs), .delay s.params.tWrite] }

/-- 40_sequencer.md R63: a byte transfer cut short at its write number `k` (1 to 6) has `k` writes and `k - 1` delays, the
first `2k - 1` events of R62; `RS` keeps `rs`, and nothing else of the block changes. -/
def Obligations.ByteTransferCutShort : Prop :=
  ∀ (s : State) (b : Byte) (rs : Bit) (k : Nat) (e : TransportError), 1 ≤ k → k ≤ 6 → s.failsAt (k - 1) e →
    byteTransfer b rs s = .error e { s with
      rs := rs
      bus := s.bus.drop k
      trace := s.trace ++ (byteEvents s.addr s.params.tWrite s.bl b rs).take (2 * k - 1) }

/-! ### The requests made of byte transfers -/

/-- 40_sequencer.md R64, R65: WCMD and WDAT, with their words, their whole next state, and what a failing write leaves. -/
def Obligations.WriteCommandAndWriteData : Prop :=
  ∀ (s : State) (b : Byte), s.seq = .idle →
    (encodeWord (.wcmd b) = 0xA0000000 ||| b.setWidth 32 ∧ SendsTransfers (.wcmd b) s s [(b, 0)]) ∧
    (encodeWord (.wdat b) = 0xB0000000 ||| b.setWidth 32 ∧ SendsTransfers (.wdat b) s s [(b, 1)])

/-- 41_lcd_ops.md R70, R72, R73, R74: CLEAR, VIS, SHL and SHR send their one command byte; `BL` is not touched. -/
def Obligations.ClearVisibilityAndShifts : Prop :=
  ∀ s : State, s.seq = .idle →
    (encodeWord .clear = 0x50000000 ∧ SendsTransfers .clear s s [(0x01, 0)]) ∧
    (encodeWord (.vis 1) = 0x70000001 ∧ SendsTransfers (.vis 1) s s [(0x0C, 0)]) ∧
    (encodeWord (.vis 0) = 0x70000000 ∧ SendsTransfers (.vis 0) s s [(0x08, 0)]) ∧
    (encodeWord .shl = 0x80000000 ∧ SendsTransfers .shl s s [(0x18, 0)]) ∧
    (encodeWord .shr = 0x90000000 ∧ SendsTransfers .shr s s [(0x1C, 0)])

/-- 41_lcd_ops.md R71: BKL writes `BL` before any event and then sends the no-op command under the new `BL`; on an error
`BL` keeps `f`. -/
def Obligations.SetBacklight : Prop :=
  ∀ (s : State) (f : Bit), s.seq = .idle →
    encodeWord (.bkl f) = 0x60000000 ||| f.setWidth 32 ∧ SendsTransfers (.bkl f) s { s with bl := f } [(0x00, 0)]

/-- 43_layout.md R83, R86: SETCUR sends `(ROW_BASE[row] + col) mod 256`, out-of-range columns included. -/
def Obligations.SetCursor : Prop :=
  ∀ (s : State) (col : Byte) (row : Row), s.seq = .idle →
    encodeWord (.setcur col row) = 0xC0000000 ||| (col.setWidth 32 <<< 8) ||| row.setWidth 32 ∧
    SendsTransfers (.setcur col row) s s
      [(BitVec.ofNat 8 (([0x80, 0xC0, 0x94, 0xD4].getD row.toNat 0 + col.toNat) % 256), 0)]

/-- 43_layout.md R88, R89: PUTSTR sends a positioning command before character 0 and before each character whose address is
not one more than the one before, and each character as data; the empty text sends the positioning command alone. -/
def Obligations.PutString : Prop :=
  ∀ (s : State) (col : Byte) (row : Row) (text : List Byte), s.seq = .idle →
    encodeWord (.putstr col row text) = 0xD0000000 ||| (col.setWidth 32 <<< 8) ||| row.setWidth 32 ∧
    SendsTransfers (.putstr col row text) s s (textTransfers s.params.wrapOtherRows col row text)

/-- 43_layout.md R92: PUTNUM is PUTSTR of the decimal text of its number, and leaves `RS` 1 when it succeeds. -/
def Obligations.PutNumber : Prop :=
  ∀ (s : State) (col : Byte) (row : Row) (n : BitVec 32), s.seq = .idle →
    encodeWord (.putnum col row n) = 0xE0000000 ||| (col.setWidth 32 <<< 8) ||| row.setWidth 32 ∧
    exec (.putnum col row n) s = exec (.putstr col row (dec n)) s ∧
    SendsTransfers (.putnum col row n) s s (textTransfers s.params.wrapOtherRows col row (dec n)) ∧
    ((textTransfers s.params.wrapOtherRows col row (dec n)).getLastD (0, 0)).2 = 1

/-- 30_encoding.md R58: the requests that are another request written otherwise. -/
def Obligations.PseudoRequests : Prop :=
  ∀ (s : State) (col : Byte) (row : Row) (n : BitVec 32) (f : Bit),
    exec .clear s = exec (.wcmd 0x01) s ∧ exec (.vis 1) s = exec (.wcmd 0x0C) s ∧
    exec (.vis 0) s = exec (.wcmd 0x08) s ∧ exec .shl s = exec (.wcmd 0x18) s ∧ exec .shr s = exec (.wcmd 0x1C) s ∧
    exec (.setcur col row) s = exec (.wcmd (caddr col.toNat row)) s ∧
    exec (.putnum col row n) s = exec (.putstr col row (dec n)) s ∧
    exec (.bkl f) s = exec (.wcmd 0x00) { s with bl := f }

/-! ### INIT -/

/-- 41_lcd_ops.md R68: INIT writes `ADDR` and `RS` before any event, sends the preamble nibbles with their gaps and then
the four command bytes, all to the new address and under the current `BL`; a failing write ends it at once and `ADDR`
keeps the new value. -/
def Obligations.Initialize : Prop :=
  ∀ (s : State) (a : DevAddr), s.seq = .idle →
    encodeWord (.init a) = 0x10000000 ||| (a.setWidth 32 <<< 8) ∧
    (s.grants (3 * (preambleCount s.params.nPre3 + 1) + 24) →
      exec (.init a) s = .next ({ s with addr := a, rs := 0 }.afterEvents
        (initEvents a s.params.tWrite s.bl (preambleCount s.params.nPre3)) (okReply 0))) ∧
    (∀ k e, k < 3 * (preambleCount s.params.nPre3 + 1) + 24 → s.failsAt k e →
      exec (.init a) s = .next ({ s with addr := a, rs := 0, seqBroken := true }.afterEvents
        (cutAfterCall k (initEvents a s.params.tWrite s.bl (preambleCount s.params.nPre3))) (errorReply e)))

/-- 41_lcd_ops.md R69, read at the device: what a successful INIT latches there, in order: every 0x3 nibble, then 0x2, then
the bytes 0x28, 0x0C, 0x06, 0x01, all to the instruction register. R69 speaks of the order of nibbles in the trace; that a
nibble of the trace is what a falling edge of E latches is the model's reading (20_memory.md R36; log 15, DEDUCED); what the
controller does with the nibbles is not claimed (70_reset_and_hazards.md R110). -/
def Obligations.InitOrder : Prop :=
  ∀ (s : State) (a : DevAddr) (p : Byte), s.seq = .idle → p &&& 0x04 = 0x00 →
    s.grants (3 * (preambleCount s.params.nPre3 + 1) + 24) →
    ∃ t evs, exec (.init a) s = .next t ∧ t.trace = s.trace ++ evs ∧
      latched p (bytesTo a evs) =
        List.replicate (preambleCount s.params.nPre3) (0x3, 0) ++ [(0x2, 0)] ++
          [(0x2, 0), (0x8, 0), (0x0, 0), (0xC, 0), (0x0, 0), (0x6, 0), (0x0, 0), (0x1, 0)]

/-! ### The address unit -/

/-- 42_address.md R76: SETADDR writes `ADDR` and nothing else, emits no event, and is answered OK. -/
def Obligations.SetAddress : Prop :=
  ∀ (s : State) (a : DevAddr), s.seq = .idle →
    encodeWord (.setaddr a) = 0x20000000 ||| (a.setWidth 32 <<< 8) ∧
    exec (.setaddr a) s = .next { s with addr := a, replies := s.replies ++ [⟨.ok, 0, none⟩] }

/-- 42_address.md R77, R80, R81: when candidate `i` is the first to accept, PROBE and AUTODET emit the four events of each
candidate up to it and no more, answer OK with its address, and AUTODET alone writes it to `ADDR`. -/
def Obligations.ProbeFindsTheFirstAcceptingCandidate : Prop :=
  ∀ (s : State) (i : Nat), s.seq = .idle → i < 16 → s.grants (4 * (i + 1)) →
    (∀ j, j < i → ¬ s.candidateAccepts j) → s.candidateAccepts i →
    exec .probe s = .next (s.afterEvents (s.probeEvents (i + 1)) (okReply ((candidateAddr i).setWidth 8))) ∧
    exec .autodet s = .next ({ s with addr := candidateAddr i }.afterEvents (s.probeEvents (i + 1))
      (okReply ((candidateAddr i).setWidth 8)))

/-- 42_address.md R78, R80, R81 and 60_exceptions.md R95: when no candidate accepts, PROBE and AUTODET emit 64 events,
answer NOT_FOUND with value 0, and change no state of the block. -/
def Obligations.ProbeNotFound : Prop :=
  ∀ s : State, s.seq = .idle → s.grants 64 → (∀ j, j < 16 → ¬ s.candidateAccepts j) →
    exec .probe s = .next (s.afterEvents (s.probeEvents 16) notFoundReply) ∧
    exec .autodet s = .next (s.afterEvents (s.probeEvents 16) notFoundReply) ∧
    (s.probeEvents 16).length = 64

/-- 42_address.md R77: a failing call ends the probe: the scan does not go on to the next candidate, `ADDR` is unchanged
and `SEQ_BROKEN` is set. -/
def Obligations.ProbeEndsAtAFailingCall : Prop :=
  ∀ (s : State) (k : Nat) (e : TransportError), s.seq = .idle → k < 64 → s.failsAt k e →
    (∀ j, 4 * (j + 1) ≤ k → ¬ s.candidateAccepts j) →
    exec .probe s = .next ({ s with seqBroken := true }.afterEvents
      ((s.probeEvents 16).take k ++ [failedProbeCall k e]) (errorReply e)) ∧
    exec .autodet s = .next ({ s with seqBroken := true }.afterEvents
      ((s.probeEvents 16).take k ++ [failedProbeCall k e]) (errorReply e))

/-- 42_address.md R77, R78, R81, 00_scope.md R6: whatever the transport answers, a probe emits at most 64 events, writes
only 0xFF and 0x00, touches only candidates, delays nowhere, and writes neither `BL` nor `RS`; PROBE leaves `ADDR` alone,
and AUTODET leaves it alone unless it answers OK with the new value. -/
def Obligations.ProbeIsBounded : Prop :=
  ∀ (i : Instr) (s t : State), isProber i = true → exec i s = .next t →
    (∃ evs, t.trace = s.trace ++ evs ∧ evs.length ≤ 64 ∧
      ∀ x ∈ evs, (∃ j, j < 16 ∧ ((∃ v, x = .write (candidateAddr j) v ∧ (v = 0xFF ∨ v = 0x00)) ∨
        ∃ r, x = .read (candidateAddr j) r))) ∧
    t.bl = s.bl ∧ t.rs = s.rs ∧
    (t.addr = s.addr ∨ (i = .autodet ∧ t.replies = s.replies ++ [⟨.ok, t.addr.setWidth 8, none⟩]))

/-- 70_reset_and_hazards.md R118: a PROBE or AUTODET whose calls all succeed writes 0xFF and then 0x00 to each candidate it
probes, which with E low before makes one falling edge of E and latches the nibble 0xF with RS = 1; a candidate it does not
reach gets no byte; and `SEQ_BROKEN` is not set for this. The probed candidates are the first `n`: `n` is 16, or candidate
`n - 1` is the first to accept. What an edge latches is the observer of log 15 (DEDUCED). That the `Read` between the two
writes leaves the lines as they are, which the spec leaves open (20_memory.md R36), is the model's choice (log 16, DESIGN
CHOICE). What the controller does with the nibble is not claimed, its nibble phase being unknown after it (R118). -/
def Obligations.ProbeStrobesTheDisplay : Prop :=
  ∀ (i : Instr) (s : State) (n : Nat) (p : Byte), isProber i = true → s.seq = .idle → 1 ≤ n → n ≤ 16 →
    s.grants (4 * n) → (∀ j, j + 1 < n → ¬ s.candidateAccepts j) → (n < 16 → s.candidateAccepts (n - 1)) →
    p &&& 0x04 = 0x00 →
    ∃ t evs, exec i s = .next t ∧ t.trace = s.trace ++ evs ∧ t.seqBroken = s.seqBroken ∧
      (∀ j, j < n → bytesTo (candidateAddr j) evs = [0xFF, 0x00] ∧
        latched p (bytesTo (candidateAddr j) evs) = [(0xF, 1)]) ∧
      (∀ j, n ≤ j → j < 16 → bytesTo (candidateAddr j) evs = [])

/-! ### The layout -/

/-- 43_layout.md R83, R84, R85: the addresses of the four rows, the source's worked example, and the wrapped sums. -/
def Obligations.CursorAddresses : Prop :=
  (∀ c : Nat, caddr c 0 = BitVec.ofNat 8 (0x80 + c) ∧ caddr c 1 = BitVec.ofNat 8 (0xC0 + c) ∧
    caddr c 2 = BitVec.ofNat 8 (0x94 + c) ∧ caddr c 3 = BitVec.ofNat 8 (0xD4 + c)) ∧
  caddr 5 2 = 0x99 ∧ caddr 15 0 = 0x8F ∧ caddr 15 1 = 0xCF ∧ caddr 15 2 = 0xA3 ∧ caddr 15 3 = 0xE3 ∧
  caddr 20 0 = caddr 0 2 ∧ caddr 20 1 = caddr 0 3 ∧
  caddr 0x80 0 = 0x00 ∧ caddr 0x2C 3 = 0x00 ∧ caddr 0x40 1 = 0x00 ∧ caddr 0xFF 3 = 0xD3 ∧
  caddr 0x6C 1 = 0x2C ∧ caddr 0x81 0 = 0x01

/-- 43_layout.md R87: where character `k` goes, for each starting row and each reading of the rows 1 to 3. -/
def Obligations.Placement : Prop :=
  ∀ (k : Nat) (col : Byte) (row : Row) (mode : WrapOtherRows),
    (col.toNat ≤ 15 → k < 16 - col.toNat → place mode k col 0 = (col.toNat + k, 0)) ∧
    (col.toNat ≤ 15 → 16 - col.toNat ≤ k → place mode k col 0 = (k - (16 - col.toNat), 1)) ∧
    (16 ≤ col.toNat → place mode 0 col 0 = (col.toNat, 0)) ∧
    (16 ≤ col.toNat → 1 ≤ k → place mode k col 0 = (k - 1, 1)) ∧
    (row ≠ 0 → place mode 0 col row = (col.toNat, row)) ∧
    (row ≠ 0 → 1 ≤ k → place .row0Literal k col row = (col.toNat + k, 0)) ∧
    (row ≠ 0 → 1 ≤ k → place .sameRow k col row = (col.toNat + k, row))

/-- 43_layout.md R87, R88, under the premise of 70_reset_and_hazards.md R110: where a successful INIT was the last request
that initialised the controller behind `ADDR` and `SEQ_BROKEN = 0` (`State.DisplayReady`), a PUTSTR whose writes are granted
and whose addresses are Set-DDRAM commands (0x80 or more, R85) puts every character in its cell, in order, wherever the
display's cursor was: the controller gets `P` commands and the text as data, a command sets its cursor, a data byte fills
the cursor's cell and advances it by one. The lines start from the last byte of the trace written to `ADDR`; that E is low
there follows from the premise. What the display does with the lines is the model's reading (log 15, DEDUCED). The expected
cells are `cellByte`, written out from R83 and R87. Two points the spec leaves open at the display are the model's choice:
the statement takes in every `T_WRITE`, 0 included, which R112 says has no display meaning (log 17, DESIGN CHOICE), and
columns past 15, of whose showing 93_implementation_defined.md U1 says that a model makes no claim: there a cell is the
address counted by the observer and no claim about what is shown (log 18, DESIGN CHOICE). What the trace holds without the
premise is `PutStringAddressesEveryCell`. -/
def Obligations.EveryCharacterLandsInItsCell : Prop :=
  ∀ (s : State) (col : Byte) (row : Row) (text : List Byte) (p cursor : Byte), s.seq = .idle → s.DisplayReady →
    (bytesTo s.addr s.trace).getLast? = some p →
    (∀ k, k < text.length → 0x80 ≤ (cellByte s.params.wrapOtherRows col row k).toNat) →
    s.grants (6 * (text.length + positionings s.params.wrapOtherRows col row text.length)) →
    ∃ t evs, exec (.putstr col row text) s = .next t ∧ t.trace = s.trace ++ evs ∧ t.seqBroken = false ∧
      (readBack p s.addr evs).countP (fun x => x.2 == 0) = positionings s.params.wrapOtherRows col row text.length ∧
      ((readBack p s.addr evs).filter fun x => x.2 == 1).map (fun x => x.1) = text ∧
      placedCells cursor (readBack p s.addr evs) =
        text.zipIdx.map fun x => (cellByte s.params.wrapOtherRows col row x.2, x.1)

/-- 43_layout.md R90: the source's 17 characters: the 17th goes to row 1, column 0, in 19 byte transfers and 114 writes. -/
def Obligations.SeventeenCharactersWrap : Prop :=
  ∀ s : State, s.seq = .idle → s.grants 114 →
    ∃ t evs, exec (.putstr 0 0 ((List.range 17).map fun k => BitVec.ofNat 8 (0x41 + k))) s = .next t ∧
      t.trace = s.trace ++ evs ∧ writeCount evs = 114 ∧ t.rs = 1 ∧
      evs = transferEvents s.addr s.params.tWrite s.bl
        ([(0x80, 0)] ++ (List.range 16).map (fun k => (BitVec.ofNat 8 (0x41 + k), 1)) ++ [(0xC0, 0), (0x51, 1)])

/-- 43_layout.md R91: `dec(n)` spells `n`: a minus sign exactly for the negative ones, then the digits of the magnitude with
no leading zero; 1 to 11 bytes. -/
def Obligations.DecimalText : Prop :=
  ∀ n : BitVec 32, ∃ l : List Byte,
    dec n = (if n.toInt < 0 then [0x2D] else []) ++ l ∧ digitsValue l = n.toInt.natAbs ∧
    (∀ b ∈ l, 0x30 ≤ b.toNat ∧ b.toNat ≤ 0x39) ∧ (l.head? = some 0x30 → l = [0x30]) ∧
    1 ≤ l.length ∧ (dec n).length ≤ 11

/-! ### Rules of the whole machine -/

/-- 20_memory.md R36, 40_sequencer.md R61, R66: for every request made of byte transfers, what the falling edges of E latch
at the device is exactly the request's controller bytes, high nibble first, each with its register select. What an edge
latches, the nibble and register select of the byte before it, is the model's reading (log 15, DEDUCED); what the controller
does with the nibbles is not claimed (70_reset_and_hazards.md R110). -/
def Obligations.LatchedNibblesAreTheControllerBytes : Prop :=
  ∀ (i : Instr) (s : State) (l : List (Byte × Bit)) (p : Byte), s.seq = .idle →
    transfersOf s.params.wrapOtherRows i = some l → s.grants (6 * l.length) → p &&& 0x04 = 0x00 →
    ∃ t evs, exec i s = .next t ∧ t.trace = s.trace ++ evs ∧ latched p (bytesTo s.addr evs) = nibblesOf l

/-- 10_state.md R16, R17, R19, 41_lcd_ops.md R75: whatever the transport answers, every write of a request that is not a
probe goes to `ADDR`, carries `BL` in bit 3 and 0 in bit 1, where `ADDR` and `BL` are the values it leaves; and such a
request reads nothing. -/
def Obligations.EveryStrobeByteCarriesTheBacklight : Prop :=
  ∀ (i : Instr) (s t : State), isProber i = false → exec i s = .next t →
    ∃ evs, t.trace = s.trace ++ evs ∧
      ∀ x ∈ evs, (∃ v, x = .write t.addr v ∧ v.extractLsb' 3 1 = t.bl ∧ v.extractLsb' 1 1 = 0) ∨ ∃ ms, x = .delay ms

/-- 10_state.md R15: `ADDR` is written by exactly three requests: INIT and SETADDR with their operand, whatever the
transport answers, and AUTODET with the address it found, while an AUTODET that found none leaves `ADDR` unchanged. -/
def Obligations.OnlyThreeRequestsWriteTheAddress : Prop :=
  (∀ (i : Instr) (s t : State), exec i s = .next t → (∀ a, i ≠ .init a) → (∀ a, i ≠ .setaddr a) → i ≠ .autodet →
    t.addr = s.addr) ∧
  (∀ (a : DevAddr) (s t : State), exec (.init a) s = .next t → t.addr = a) ∧
  (∀ (a : DevAddr) (s t : State), exec (.setaddr a) s = .next t → t.addr = a) ∧
  (∀ s t : State, exec .autodet s = .next t → ∃ r, t.replies = s.replies ++ [r] ∧
    (r.code = .ok → t.addr ∈ candidates ∧ r.value = t.addr.setWidth 8) ∧ (r.code ≠ .ok → t.addr = s.addr))

/-- 10_state.md R17: `BL` is mutated only by BKL, and by BKL to its operand whatever the transport answers. -/
def Obligations.OnlyBklWritesTheBacklight : Prop :=
  ∀ (i : Instr) (s t : State), exec i s = .next t → t.bl = backlightDuring i s.bl

/-- 10_state.md R21, 60_exceptions.md R94, R95: a request sets `SEQ_BROKEN` exactly when it ends with TRANSPORT_ERROR, and
no request clears it. -/
def Obligations.SequenceBrokenIsSticky : Prop :=
  ∀ (i : Instr) (s t : State), exec i s = .next t →
    ∃ r, t.replies = s.replies ++ [r] ∧ (t.seqBroken = true ↔ s.seqBroken = true ∨ r.code = .transportError)

/-- 10_state.md R21: "The bit does not change what the block emits later": with `SEQ_BROKEN` set or clear, a request gives
the same trace, the same response and the same state but for that bit. -/
def Obligations.SequenceBrokenChangesNothing : Prop :=
  ∀ (i : Instr) (s t : State) (b : Bool), exec i s = .next t →
    ∃ b', exec i { s with seqBroken := b } = .next { t with seqBroken := b' }

/-- 10_state.md R18: `RS` between requests is never observable: with any other value of `RS` before it, a request gives the
same trace, the same response and the same state but for `RS`. -/
def Obligations.RegisterSelectIsNeverObserved : Prop :=
  ∀ (i : Instr) (s t : State) (r : Bit), exec i s = .next t →
    ∃ r', exec i { s with rs := r } = .next { t with rs := r' }

/-- 60_exceptions.md R94, R99, 20_memory.md R37: errors are precise. Every answer used before the last is `ok`; a request
answered TRANSPORT_ERROR with `e` ends its trace with the call that failed, whose answer was `err(e)`; any other request
has used only `ok` answers. (Answers past the end of the list `bus` are free values, and nothing is said of them.) -/
def Obligations.TransportErrorsArePrecise : Prop :=
  ∀ (i : Instr) (s t : State), exec i s = .next t →
    ∃ evs r, t.trace = s.trace ++ evs ∧ t.replies = s.replies ++ [r] ∧ t.bus = s.bus.drop (callCount evs) ∧
      (∀ j, j + 1 < callCount evs → j < s.bus.length → ∃ d, s.bus[j]? = some (.ok d)) ∧
      (r.code = .transportError → ∃ pre x e, evs = pre ++ [x] ∧ isCall x = true ∧ r = ⟨.transportError, 0, some e⟩ ∧
        (callCount evs ≤ s.bus.length → s.bus[callCount evs - 1]? = some (.err e))) ∧
      (r.code ≠ .transportError → r.err = none ∧
        ∀ j, j < callCount evs → j < s.bus.length → ∃ d, s.bus[j]? = some (.ok d))

/-- 70_reset_and_hazards.md R121: the writes, reads, delays and the sum of delay arguments that each request adds to the
trace when it succeeds, row by row; an illegal request adds no event. (INIT's formula is written out for both values of
`N_PRE3`. `P` is `positionings`, and a FOUND at candidate `n`, counting from 1, has `n - 1` rejected ones before it.) That
the step of an illegal request answers a next state, where 60_exceptions.md R96 also lets a model refuse it, is the model's
choice (log 10). -/
def Obligations.EventCounts : Prop :=
  (∀ (s : State) (i : Instr), s.seq = .idle → s.grants 6 →
    ((∃ b, i = .wcmd b) ∨ (∃ b, i = .wdat b) ∨ i = .clear ∨ (∃ f, i = .bkl f) ∨ (∃ f, i = .vis f) ∨ i = .shl ∨ i = .shr ∨
      (∃ col row, i = .setcur col row)) →
    Costs i s .ok 6 0 6 (6 * s.params.tWrite.toNat)) ∧
  (∀ (s : State) (a : DevAddr), s.seq = .idle →
    (s.params.nPre3 = .two → s.grants 33 → Costs (.init a) s .ok 33 0 36 (33 * s.params.tWrite.toNat + 15)) ∧
    (s.params.nPre3 = .three → s.grants 36 → Costs (.init a) s .ok 36 0 40 (36 * s.params.tWrite.toNat + 20))) ∧
  (∀ (s : State) (col : Byte) (row : Row) (text : List Byte), s.seq = .idle →
    let n := 6 * (text.length + positionings s.params.wrapOtherRows col row text.length)
    s.grants n → Costs (.putstr col row text) s .ok n 0 n (n * s.params.tWrite.toNat)) ∧
  (∀ (s : State) (col : Byte) (row : Row) (x : BitVec 32), s.seq = .idle →
    let n := 6 * ((dec x).length + positionings s.params.wrapOtherRows col row (dec x).length)
    s.grants n → Costs (.putnum col row x) s .ok n 0 n (n * s.params.tWrite.toNat)) ∧
  (∀ (s : State) (i : Instr) (n : Nat), s.seq = .idle → isProber i = true → 1 ≤ n → n ≤ 16 → s.grants (4 * n) →
    (∀ j, j + 1 < n → ¬ s.candidateAccepts j) → s.candidateAccepts (n - 1) → Costs i s .ok (2 * n) (2 * n) 0 0) ∧
  (∀ (s : State) (i : Instr), s.seq = .idle → isProber i = true → s.grants 64 →
    (∀ j, j < 16 → ¬ s.candidateAccepts j) → Costs i s .notFound 32 32 0 0) ∧
  (∀ (s : State) (a : DevAddr), s.seq = .idle → Costs (.setaddr a) s .ok 0 0 0 0) ∧
  (∀ (s : State) (q : Request) (rest : List Request), s.seq = .idle → s.port = q :: rest → decode q = none →
    ∃ t, step s = .next t ∧ t.trace = s.trace)

/-- 43_layout.md R89: a PUTSTR of `L` characters whose writes are granted adds `6 * (L + P)` writes, each followed by
`Delay(T_WRITE)`, where `P`, at least 1, is the number of its positioning commands. The bytes written encode `P` command
bytes and `L` data bytes, the text in its order. This is a statement about the trace, exact whatever came before; it claims
nothing of the display, for which R110 asks a premise (`EveryCharacterLandsInItsCell` has it). That a byte of the trace is
decoded at the falling edges of E is the model's reading (log 15, DEDUCED). -/
def Obligations.TextTransferCount : Prop :=
  ∀ (s : State) (col : Byte) (row : Row) (text : List Byte) (p : Byte), s.seq = .idle → p &&& 0x04 = 0x00 →
    s.grants (6 * (text.length + positionings s.params.wrapOtherRows col row text.length)) →
    1 ≤ positionings s.params.wrapOtherRows col row text.length ∧
    ∃ t evs, exec (.putstr col row text) s = .next t ∧ t.trace = s.trace ++ evs ∧
      writeCount evs = 6 * (text.length + positionings s.params.wrapOtherRows col row text.length) ∧
      (∃ vs : List Byte, evs = vs.flatMap fun v => [.write s.addr v, .delay s.params.tWrite]) ∧
      (readBack p s.addr evs).countP (fun x => x.2 == 0) = positionings s.params.wrapOtherRows col row text.length ∧
      ((readBack p s.addr evs).filter fun x => x.2 == 1).map (fun x => x.1) = text

/-! ### Invariants of every step -/

/-- 10_state.md R21: that `SEQ_BROKEN` records exactly the requests that ended in TRANSPORT_ERROR is kept by every step,
from every state. -/
def Obligations.StepKeepsBrokenRecorded : Prop :=
  ∀ s t : State, s.BrokenRecorded → step s = .next t → t.BrokenRecorded

/-- 10_state.md R19, 30_encoding.md R53, 42_address.md R77, 00_scope.md R6: that every event of the trace is one the block
can emit is kept by every step, from every state and whatever the transport answers. -/
def Obligations.StepKeepsTraceAllowed : Prop :=
  ∀ s t : State, s.TraceAllowed → step s = .next t → t.TraceAllowed

/-- 10_state.md R25: the reset state, and every power-on state, meets both invariants. -/
def Obligations.ResetMeetsTheInvariants : Prop :=
  State.reset.BrokenRecorded ∧ State.reset.TraceAllowed ∧
  ∀ p : Params, (State.powerOn p).BrokenRecorded ∧ (State.powerOn p).TraceAllowed

/-! ### Text on the wire, and the display's E line -/

/-- 43_layout.md R87, R88: the bytes that a PUTSTR whose writes are granted adds to the trace encode, whatever came before, a
sequence of commands and data bytes in which the data bytes are the characters in order, and the address that stands before
each, taking every command as an address and counting one on after each data byte, is that of its cell. This is a statement
about the trace (decoded at the falling edges of E: log 15, DEDUCED); it claims nothing of the display, for which
70_reset_and_hazards.md R110 asks a premise (`EveryCharacterLandsInItsCell` has it). -/
def Obligations.PutStringAddressesEveryCell : Prop :=
  ∀ (s : State) (col : Byte) (row : Row) (text : List Byte) (p cursor : Byte), s.seq = .idle → p &&& 0x04 = 0x00 →
    s.grants (6 * (text.length + positionings s.params.wrapOtherRows col row text.length)) →
    ∃ t evs, exec (.putstr col row text) s = .next t ∧ t.trace = s.trace ++ evs ∧
      placedCells cursor (readBack p s.addr evs) =
        text.zipIdx.map fun x => (cellByte s.params.wrapOtherRows col row x.2, x.1)

/-- 40_sequencer.md R60, 60_exceptions.md R94: from a successful INIT of a device on, through every request that does not
disturb it and as long as `SEQ_BROKEN = 0`, the last byte written to the device has E low: no strobe is left open. -/
def Obligations.EnableLineRestsLow : Prop :=
  ∀ (a : DevAddr) (s : State), InitialisedAt a s → s.seqBroken = false →
    ∃ p, (bytesTo a s.trace).getLast? = some p ∧ p &&& 0x04 = 0x00
end

