-- ==== Sys2Proof/Laws/Encoding.lean ====
section
/-! SUPPORT. The fields of an assembled request word (30_encoding.md R46), and the operands inside `A` and `B` (R47, R48). -/

namespace Sys2Proof

@[simp] theorem rsvdField_assembleWord (op : BitVec 4) (a b : Byte) : rsvdField (assembleWord op a b) = 0 := by
  apply BitVec.eq_of_getLsbD_eq
  intro i hi
  simp [rsvdField, assembleWord]
  grind

@[simp] theorem fieldA_assembleWord (op : BitVec 4) (a b : Byte) : fieldA (assembleWord op a b) = a := by
  apply BitVec.eq_of_getLsbD_eq
  intro i hi
  simp [fieldA, assembleWord]
  grind

@[simp] theorem fieldB_assembleWord (op : BitVec 4) (a b : Byte) : fieldB (assembleWord op a b) = b := by
  apply BitVec.eq_of_getLsbD_eq
  intro i hi
  simp [fieldB, assembleWord]
  grind

/-- A word whose reserved field is zero is the word of its other three fields. -/
theorem assembleWord_fields {w : RequestWord} (h : rsvdField w = 0) :
    assembleWord (opField w) (fieldA w) (fieldB w) = w := by
  apply BitVec.eq_of_getLsbD_eq
  intro i hi
  have hz : ∀ j, (rsvdField w).getLsbD j = false := by simp [h]
  simp only [rsvdField, BitVec.getLsbD_extractLsb'] at hz
  simp [fieldB, fieldA, opField, assembleWord]
  have := hz (i - 16)
  grind

@[simp] theorem mnemonicOf_opcode (m : Mnemonic) : mnemonicOf m.opcode = some m := by cases m <;> rfl

theorem opcode_of_mnemonicOf {op : BitVec 4} {m : Mnemonic} (h : mnemonicOf op = some m) : m.opcode = op := by
  have all : ∀ op : BitVec 4, (mnemonicOf op).all (fun m => m.opcode == op) = true := by decide
  have := all op
  rw [h] at this
  simpa using this

theorem payloadKind_of_mnemonicOf {w : RequestWord} {m : Mnemonic} (h : mnemonicOf (opField w) = some m) :
    payloadKind w = m.format.payloadKind := by
  simp [payloadKind, h]

/-- The text of a payload that a PUTSTR request may carry. -/
theorem legalText_eq_some {p : Payload} {t : List Byte} :
    p.legalText = some t ↔ p = .text t ∧ t.length ≤ Config.textMax := by
  cases p with
  | text u =>
    simp only [Payload.legalText, Payload.text.injEq]
    split <;> simp_all
    · rintro rfl; assumption
    · rintro rfl; assumption
  | empty => simp [Payload.legalText]
  | number n => simp [Payload.legalText]

theorem int32_eq_some {p : Payload} {n : BitVec 32} : p.int32 = some n ↔ p = .number n := by
  cases p <;> simp [Payload.int32]

/-! ### The operands inside `A` and `B` -/

@[simp] theorem extract_addr (a : DevAddr) : (a.setWidth 8).extractLsb' 0 7 = a := by revert a; decide
@[simp] theorem extract_addr_top (a : DevAddr) : (a.setWidth 8).extractLsb' 7 1 = 0 := by revert a; decide
@[simp] theorem extract_flag (f : Bit) : (f.setWidth 8).extractLsb' 0 1 = f := by revert f; decide
@[simp] theorem extract_flag_top (f : Bit) : (f.setWidth 8).extractLsb' 1 7 = 0 := by revert f; decide
@[simp] theorem extract_row (r : Row) : (r.setWidth 8).extractLsb' 0 2 = r := by revert r; decide
@[simp] theorem extract_row_top (r : Row) : (r.setWidth 8).extractLsb' 2 6 = 0 := by revert r; decide

theorem addr_of_byte {b : Byte} (h : b.extractLsb' 7 1 = 0) : (b.extractLsb' 0 7).setWidth 8 = b := by
  revert b; decide

theorem flag_of_byte {b : Byte} (h : b.extractLsb' 1 7 = 0) : (b.extractLsb' 0 1).setWidth 8 = b := by
  revert b; decide

theorem row_of_byte {b : Byte} (h : b.extractLsb' 2 6 = 0) : (b.extractLsb' 0 2).setWidth 8 = b := by
  revert b; decide

/-- A word is its four fields. -/
theorem word_split (w : RequestWord) : w = opField w ++ rsvdField w ++ fieldA w ++ fieldB w := by
  apply BitVec.eq_of_getLsbD_eq
  intro i hi
  simp only [opField, rsvdField, fieldA, fieldB, BitVec.getLsbD_append, BitVec.getLsbD_extractLsb']
  by_cases h1 : i < 8
  · simp [h1]
  by_cases h2 : i < 16
  · simp [h1, show i - 8 < 8 by omega, show 8 + (i - 8) = i by omega]
  by_cases h3 : i < 28
  · simp [h1, show ¬ (i - 8 < 8) by omega, show i - 8 - 8 < 12 by omega, show 16 + (i - 8 - 8) = i by omega]
  · simp [h1, show ¬ (i - 8 < 8) by omega, show ¬ (i - 8 - 8 < 12) by omega, show i - 8 - 8 - 12 < 4 by omega, show 28 + (i - 8 - 8 - 12) = i by omega]

/-- A masked comparison of words is one of each field. -/
theorem masked_iff (w m c : RequestWord) :
    w &&& m = c ↔ opField w &&& opField m = opField c ∧ rsvdField w &&& rsvdField m = rsvdField c ∧
      fieldA w &&& fieldA m = fieldA c ∧ fieldB w &&& fieldB m = fieldB c := by
  constructor
  · rintro rfl
    simp [opField, rsvdField, fieldA, fieldB, BitVec.extractLsb'_and]
  · rintro ⟨h1, h2, h3, h4⟩
    rw [word_split (w &&& m), word_split c, ← h1, ← h2, ← h3, ← h4]
    simp [opField, rsvdField, fieldA, fieldB, BitVec.extractLsb'_and]

/-- What a row of the opcode table accepts, by the fields of the word. -/
theorem row_accepts_iff {r : OpRow} (hr : r ∈ opcodeTable) (w : RequestWord) :
    w &&& r.mask = r.matchBits ↔
      opField w = r.mnemonic.opcode ∧ rsvdField w = 0 ∧ r.mnemonic.format.zerosHold w = true := by
  have top : ∀ a : Byte, a &&& 0x80 = 0 ↔ a.extractLsb' 7 1 = 0 := by decide
  have flag : ∀ b : Byte, b &&& 0xFE = 0 ↔ b.extractLsb' 1 7 = 0 := by decide
  have row : ∀ b : Byte, b &&& 0xFC = 0 ↔ b.extractLsb' 2 6 = 0 := by decide
  have all4 : ∀ o : BitVec 4, o &&& 0xF = o := by decide
  have all8 : ∀ b : Byte, b &&& 0xFF = b := by decide
  have all12 : ∀ x : BitVec 12, x &&& 0xFFF = x := fun x => by
    have : (0xFFF : BitVec 12) = BitVec.allOnes 12 := by decide
    rw [this, BitVec.and_allOnes]
  have none8 : ∀ b : Byte, b &&& 0 = 0 := by decide
  rw [masked_iff]
  simp only [opcodeTable, List.mem_append, List.mem_cons, List.not_mem_nil, or_false] at hr
  rcases hr with (rfl | rfl | rfl | rfl | rfl | rfl | rfl) | (rfl | rfl | rfl | rfl | rfl | rfl | rfl)
  all_goals
    simp only [Mnemonic.opcode, Mnemonic.format, Format.zerosHold, Bool.and_eq_true, beq_iff_eq, ← top, ← flag, ← row]
  any_goals (change opField w &&& 0xF = _ ∧ rsvdField w &&& 0xFFF = 0 ∧ fieldA w &&& 0x80 = 0 ∧ fieldB w &&& 0xFF = 0 ↔ _
             rw [all4, all12, all8]; rfl)
  any_goals (change opField w &&& 0xF = _ ∧ rsvdField w &&& 0xFFF = 0 ∧ fieldA w &&& 0xFF = 0 ∧ fieldB w &&& 0xFF = 0 ↔ _
             rw [all4, all12, all8, all8]; rfl)
  any_goals (change opField w &&& 0xF = _ ∧ rsvdField w &&& 0xFFF = 0 ∧ fieldA w &&& 0xFF = 0 ∧ fieldB w &&& 0xFE = 0 ↔ _
             rw [all4, all12, all8]; rfl)
  any_goals (change opField w &&& 0xF = _ ∧ rsvdField w &&& 0xFFF = 0 ∧ fieldA w &&& 0xFF = 0 ∧ fieldB w &&& 0 = 0 ↔ _
             rw [all4, all12, all8, none8, eq_self, and_true]; rfl)
  all_goals (change opField w &&& 0xF = _ ∧ rsvdField w &&& 0xFFF = 0 ∧ fieldA w &&& 0 = 0 ∧ fieldB w &&& 0xFC = 0 ↔ _
             rw [all4, all12, none8, eq_self, true_and]; rfl)

theorem low_half_eq_zero_iff (w : RequestWord) : w.extractLsb' 0 16 = 0 ↔ fieldA w = 0 ∧ fieldB w = 0 := by
  have h : w.extractLsb' 0 16 = fieldA w ++ fieldB w := by
    apply BitVec.eq_of_getLsbD_eq
    intro i hi
    simp only [fieldA, fieldB, BitVec.getLsbD_append, BitVec.getLsbD_extractLsb']
    by_cases h1 : i < 8
    · simp [h1, hi]
    · simp [h1, hi, show i - 8 < 8 by omega, show 8 + (i - 8) = i by omega]
  rw [h]
  constructor
  · intro h0
    have h1 := congrArg BitVec.toNat h0
    rw [BitVec.toNat_append] at h1
    obtain ⟨ha, hb⟩ := Nat.or_eq_zero_iff.1 h1
    rw [Nat.shiftLeft_eq] at ha
    exact ⟨BitVec.eq_of_toNat_eq (by simpa using ha), BitVec.eq_of_toNat_eq (by simpa using hb)⟩
  · rintro ⟨h1, h2⟩
    rw [h1, h2]
    rfl

theorem addr_top_bit (w : RequestWord) : w.extractLsb' 15 1 = (fieldA w).extractLsb' 7 1 := by
  ext i hi
  obtain rfl : i = 0 := by omega
  simp [fieldA]

theorem flag_top_bits (w : RequestWord) : w.extractLsb' 1 7 = (fieldB w).extractLsb' 1 7 := by
  simp [fieldB]

theorem row_top_bits (w : RequestWord) : w.extractLsb' 2 6 = (fieldB w).extractLsb' 2 6 := by
  simp [fieldB]

end Sys2Proof
end

