-- ==== Sys2Proof/Laws/State.lean ====
section
/-! SUPPORT. One lemma for each field of State under each of its updates, so that no later proof unfolds an update. -/

namespace Sys2Proof.Machine

variable (s : State)

@[simp] theorem State.accept_addr : (s.accept).addr = s.addr := rfl
@[simp] theorem State.accept_bl : (s.accept).bl = s.bl := rfl
@[simp] theorem State.accept_rs : (s.accept).rs = s.rs := rfl
@[simp] theorem State.accept_seqBroken : (s.accept).seqBroken = s.seqBroken := rfl
@[simp] theorem State.accept_seq : (s.accept).seq = .busy := rfl
@[simp] theorem State.accept_params : (s.accept).params = s.params := rfl
@[simp] theorem State.accept_port : (s.accept).port = s.port := rfl
@[simp] theorem State.accept_bus : (s.accept).bus = s.bus := rfl
@[simp] theorem State.accept_trace : (s.accept).trace = s.trace := rfl
@[simp] theorem State.accept_replies : (s.accept).replies = s.replies := rfl

@[simp] theorem State.breakSequence_addr : (s.breakSequence).addr = s.addr := rfl
@[simp] theorem State.breakSequence_bl : (s.breakSequence).bl = s.bl := rfl
@[simp] theorem State.breakSequence_rs : (s.breakSequence).rs = s.rs := rfl
@[simp] theorem State.breakSequence_seqBroken : (s.breakSequence).seqBroken = true := rfl
@[simp] theorem State.breakSequence_seq : (s.breakSequence).seq = s.seq := rfl
@[simp] theorem State.breakSequence_params : (s.breakSequence).params = s.params := rfl
@[simp] theorem State.breakSequence_port : (s.breakSequence).port = s.port := rfl
@[simp] theorem State.breakSequence_bus : (s.breakSequence).bus = s.bus := rfl
@[simp] theorem State.breakSequence_trace : (s.breakSequence).trace = s.trace := rfl
@[simp] theorem State.breakSequence_replies : (s.breakSequence).replies = s.replies := rfl

@[simp] theorem State.setAddr_addr (a : DevAddr) : (s.setAddr a).addr = a := rfl
@[simp] theorem State.setAddr_bl (a : DevAddr) : (s.setAddr a).bl = s.bl := rfl
@[simp] theorem State.setAddr_rs (a : DevAddr) : (s.setAddr a).rs = s.rs := rfl
@[simp] theorem State.setAddr_seqBroken (a : DevAddr) : (s.setAddr a).seqBroken = s.seqBroken := rfl
@[simp] theorem State.setAddr_seq (a : DevAddr) : (s.setAddr a).seq = s.seq := rfl
@[simp] theorem State.setAddr_params (a : DevAddr) : (s.setAddr a).params = s.params := rfl
@[simp] theorem State.setAddr_port (a : DevAddr) : (s.setAddr a).port = s.port := rfl
@[simp] theorem State.setAddr_bus (a : DevAddr) : (s.setAddr a).bus = s.bus := rfl
@[simp] theorem State.setAddr_trace (a : DevAddr) : (s.setAddr a).trace = s.trace := rfl
@[simp] theorem State.setAddr_replies (a : DevAddr) : (s.setAddr a).replies = s.replies := rfl

@[simp] theorem State.setBl_addr (f : Bit) : (s.setBl f).addr = s.addr := rfl
@[simp] theorem State.setBl_bl (f : Bit) : (s.setBl f).bl = f := rfl
@[simp] theorem State.setBl_rs (f : Bit) : (s.setBl f).rs = s.rs := rfl
@[simp] theorem State.setBl_seqBroken (f : Bit) : (s.setBl f).seqBroken = s.seqBroken := rfl
@[simp] theorem State.setBl_seq (f : Bit) : (s.setBl f).seq = s.seq := rfl
@[simp] theorem State.setBl_params (f : Bit) : (s.setBl f).params = s.params := rfl
@[simp] theorem State.setBl_port (f : Bit) : (s.setBl f).port = s.port := rfl
@[simp] theorem State.setBl_bus (f : Bit) : (s.setBl f).bus = s.bus := rfl
@[simp] theorem State.setBl_trace (f : Bit) : (s.setBl f).trace = s.trace := rfl
@[simp] theorem State.setBl_replies (f : Bit) : (s.setBl f).replies = s.replies := rfl

@[simp] theorem State.setRs_addr (r : Bit) : (s.setRs r).addr = s.addr := rfl
@[simp] theorem State.setRs_bl (r : Bit) : (s.setRs r).bl = s.bl := rfl
@[simp] theorem State.setRs_rs (r : Bit) : (s.setRs r).rs = r := rfl
@[simp] theorem State.setRs_seqBroken (r : Bit) : (s.setRs r).seqBroken = s.seqBroken := rfl
@[simp] theorem State.setRs_seq (r : Bit) : (s.setRs r).seq = s.seq := rfl
@[simp] theorem State.setRs_params (r : Bit) : (s.setRs r).params = s.params := rfl
@[simp] theorem State.setRs_port (r : Bit) : (s.setRs r).port = s.port := rfl
@[simp] theorem State.setRs_bus (r : Bit) : (s.setRs r).bus = s.bus := rfl
@[simp] theorem State.setRs_trace (r : Bit) : (s.setRs r).trace = s.trace := rfl
@[simp] theorem State.setRs_replies (r : Bit) : (s.setRs r).replies = s.replies := rfl

@[simp] theorem State.afterDelay_addr (ms : Ms) : (s.afterDelay ms).addr = s.addr := rfl
@[simp] theorem State.afterDelay_bl (ms : Ms) : (s.afterDelay ms).bl = s.bl := rfl
@[simp] theorem State.afterDelay_rs (ms : Ms) : (s.afterDelay ms).rs = s.rs := rfl
@[simp] theorem State.afterDelay_seqBroken (ms : Ms) : (s.afterDelay ms).seqBroken = s.seqBroken := rfl
@[simp] theorem State.afterDelay_seq (ms : Ms) : (s.afterDelay ms).seq = s.seq := rfl
@[simp] theorem State.afterDelay_params (ms : Ms) : (s.afterDelay ms).params = s.params := rfl
@[simp] theorem State.afterDelay_port (ms : Ms) : (s.afterDelay ms).port = s.port := rfl
@[simp] theorem State.afterDelay_bus (ms : Ms) : (s.afterDelay ms).bus = s.bus := rfl
@[simp] theorem State.afterDelay_trace (ms : Ms) : (s.afterDelay ms).trace = s.trace ++ [.delay ms] := rfl
@[simp] theorem State.afterDelay_replies (ms : Ms) : (s.afterDelay ms).replies = s.replies := rfl

@[simp] theorem State.afterCall_addr (c : Call) (r : Answer) : (s.afterCall c r).addr = s.addr := rfl
@[simp] theorem State.afterCall_bl (c : Call) (r : Answer) : (s.afterCall c r).bl = s.bl := rfl
@[simp] theorem State.afterCall_rs (c : Call) (r : Answer) : (s.afterCall c r).rs = s.rs := rfl
@[simp] theorem State.afterCall_seqBroken (c : Call) (r : Answer) : (s.afterCall c r).seqBroken = s.seqBroken := rfl
@[simp] theorem State.afterCall_seq (c : Call) (r : Answer) : (s.afterCall c r).seq = s.seq := rfl
@[simp] theorem State.afterCall_params (c : Call) (r : Answer) : (s.afterCall c r).params = s.params := rfl
@[simp] theorem State.afterCall_port (c : Call) (r : Answer) : (s.afterCall c r).port = s.port := rfl
@[simp] theorem State.afterCall_bus (c : Call) (r : Answer) : (s.afterCall c r).bus = s.bus.tail := rfl
@[simp] theorem State.afterCall_trace (c : Call) (r : Answer) : (s.afterCall c r).trace = s.trace ++ [callEvent c r] := rfl
@[simp] theorem State.afterCall_replies (c : Call) (r : Answer) : (s.afterCall c r).replies = s.replies := rfl

@[simp] theorem State.respond_addr (r : Response) : (s.respond r).addr = s.addr := rfl
@[simp] theorem State.respond_bl (r : Response) : (s.respond r).bl = s.bl := rfl
@[simp] theorem State.respond_rs (r : Response) : (s.respond r).rs = s.rs := rfl
@[simp] theorem State.respond_seqBroken (r : Response) : (s.respond r).seqBroken = s.seqBroken := rfl
@[simp] theorem State.respond_seq (r : Response) : (s.respond r).seq = .idle := rfl
@[simp] theorem State.respond_params (r : Response) : (s.respond r).params = s.params := rfl
@[simp] theorem State.respond_port (r : Response) : (s.respond r).port = s.port := rfl
@[simp] theorem State.respond_bus (r : Response) : (s.respond r).bus = s.bus := rfl
@[simp] theorem State.respond_trace (r : Response) : (s.respond r).trace = s.trace := rfl
@[simp] theorem State.respond_replies (r : Response) : (s.respond r).replies = s.replies ++ [r] := rfl

@[simp] theorem State.raiseTransportError_addr (e : TransportError) : (s.raiseTransportError e).addr = s.addr := rfl
@[simp] theorem State.raiseTransportError_bl (e : TransportError) : (s.raiseTransportError e).bl = s.bl := rfl
@[simp] theorem State.raiseTransportError_rs (e : TransportError) : (s.raiseTransportError e).rs = s.rs := rfl
@[simp] theorem State.raiseTransportError_seqBroken (e : TransportError) : (s.raiseTransportError e).seqBroken = true := rfl
@[simp] theorem State.raiseTransportError_seq (e : TransportError) : (s.raiseTransportError e).seq = .idle := rfl
@[simp] theorem State.raiseTransportError_params (e : TransportError) : (s.raiseTransportError e).params = s.params := rfl
@[simp] theorem State.raiseTransportError_port (e : TransportError) : (s.raiseTransportError e).port = s.port := rfl
@[simp] theorem State.raiseTransportError_bus (e : TransportError) : (s.raiseTransportError e).bus = s.bus := rfl
@[simp] theorem State.raiseTransportError_trace (e : TransportError) : (s.raiseTransportError e).trace = s.trace := rfl
@[simp] theorem State.raiseTransportError_replies (e : TransportError) : (s.raiseTransportError e).replies = s.replies ++ [⟨.transportError, 0, some e⟩] := rfl

@[simp] theorem State.rejectIllegal_addr : (s.rejectIllegal).addr = s.addr := rfl
@[simp] theorem State.rejectIllegal_bl : (s.rejectIllegal).bl = s.bl := rfl
@[simp] theorem State.rejectIllegal_rs : (s.rejectIllegal).rs = s.rs := rfl
@[simp] theorem State.rejectIllegal_seqBroken : (s.rejectIllegal).seqBroken = s.seqBroken := rfl
@[simp] theorem State.rejectIllegal_seq : (s.rejectIllegal).seq = .idle := rfl
@[simp] theorem State.rejectIllegal_params : (s.rejectIllegal).params = s.params := rfl
@[simp] theorem State.rejectIllegal_port : (s.rejectIllegal).port = s.port := rfl
@[simp] theorem State.rejectIllegal_bus : (s.rejectIllegal).bus = s.bus := rfl
@[simp] theorem State.rejectIllegal_trace : (s.rejectIllegal).trace = s.trace := rfl
@[simp] theorem State.rejectIllegal_replies : (s.rejectIllegal).replies = s.replies ++ [⟨.illegalRequest, 0, none⟩] := rfl

@[simp] theorem State.withPort_addr (l : List Request) : (s.withPort l).addr = s.addr := rfl
@[simp] theorem State.withPort_bl (l : List Request) : (s.withPort l).bl = s.bl := rfl
@[simp] theorem State.withPort_rs (l : List Request) : (s.withPort l).rs = s.rs := rfl
@[simp] theorem State.withPort_seqBroken (l : List Request) : (s.withPort l).seqBroken = s.seqBroken := rfl
@[simp] theorem State.withPort_seq (l : List Request) : (s.withPort l).seq = s.seq := rfl
@[simp] theorem State.withPort_params (l : List Request) : (s.withPort l).params = s.params := rfl
@[simp] theorem State.withPort_port (l : List Request) : (s.withPort l).port = l := rfl
@[simp] theorem State.withPort_bus (l : List Request) : (s.withPort l).bus = s.bus := rfl
@[simp] theorem State.withPort_trace (l : List Request) : (s.withPort l).trace = s.trace := rfl
@[simp] theorem State.withPort_replies (l : List Request) : (s.withPort l).replies = s.replies := rfl

@[simp] theorem State.offer_addr (q : Request) : (s.offer q).addr = s.addr := rfl
@[simp] theorem State.offer_bl (q : Request) : (s.offer q).bl = s.bl := rfl
@[simp] theorem State.offer_rs (q : Request) : (s.offer q).rs = s.rs := rfl
@[simp] theorem State.offer_seqBroken (q : Request) : (s.offer q).seqBroken = s.seqBroken := rfl
@[simp] theorem State.offer_seq (q : Request) : (s.offer q).seq = .idle := rfl
@[simp] theorem State.offer_params (q : Request) : (s.offer q).params = s.params := rfl
@[simp] theorem State.offer_port (q : Request) : (s.offer q).port = q :: s.port := rfl
@[simp] theorem State.offer_bus (q : Request) : (s.offer q).bus = s.bus := rfl
@[simp] theorem State.offer_trace (q : Request) : (s.offer q).trace = s.trace := rfl
@[simp] theorem State.offer_replies (q : Request) : (s.offer q).replies = s.replies := rfl

end Sys2Proof.Machine
end

