-- ==== Sys2Proof/Laws/Ops.lean ====
section
/-! SUPPORT. How the pieces of a request run: the equations of `Op`, and for each shared operation what it does when the
transport answers and what it does when it does not. -/

namespace Sys2Proof.Machine

/-! ### The equations of `Op` -/

@[simp] theorem Op.pure_run {α : Type} (a : α) (s : State) : (pure a : Op α) s = .ok a s := rfl

@[simp] theorem Op.get_run (s : State) : (get : Op State) s = .ok s s := rfl

@[simp] theorem Op.modify_run (f : State → State) (s : State) : (modify f : Op Unit) s = .ok () (f s) := rfl

/-- A sequence runs its second part only where the first has gone on. -/
theorem Op.bind_run {α β : Type} (x : Op α) (f : α → Op β) (s : State) :
    (x >>= f) s = match x s with
      | .ok a t => f a t
      | .error e t => .error e t := by
  show EStateM.bind x f s = _
  unfold EStateM.bind
  cases x s <;> rfl

theorem Op.bind_ok {α β : Type} {x : Op α} {f : α → Op β} {s t : State} {a : α} (h : x s = .ok a t) :
    (x >>= f) s = f a t := by simp [Op.bind_run, h]

theorem Op.bind_error {α β : Type} {x : Op α} {f : α → Op β} {s t : State} {e : TransportError}
    (h : x s = .error e t) : (x >>= f) s = .error e t := by simp [Op.bind_run, h]

/-! ### The transport -/

theorem State.answerTo_of_bus {s : State} {r : Answer} (c : Call) (h : s.bus[0]? = some r) : s.answerTo c = r := by
  unfold State.answerTo
  cases hb : s.bus with
  | nil => simp [hb] at h
  | cons a l => simpa [hb] using h

theorem busCall_ok {s : State} {c : Call} {b : Byte} (h : s.bus[0]? = some (.ok b)) :
    busCall c s = .ok b (s.afterCall c (.ok b)) := by
  simp [busCall, State.answerTo_of_bus c h]

theorem busCall_error {s : State} {c : Call} {e : TransportError} (h : s.bus[0]? = some (.err e)) :
    busCall c s = .error e (s.afterCall c (.err e)) := by
  simp [busCall, State.answerTo_of_bus c h]

theorem delay_run (ms : Ms) (s : State) : delay ms s = .ok () (s.afterDelay ms) := rfl

/-- The state after the events of a piece of a request, every call answered. -/
def State.advance (s : State) (evs : List Event) : State :=
  { s with bus := s.bus.drop (callCount evs), trace := s.trace ++ evs }

@[simp] theorem State.advance_addr (s : State) (evs : List Event) : (s.advance evs).addr = s.addr := rfl
@[simp] theorem State.advance_bl (s : State) (evs : List Event) : (s.advance evs).bl = s.bl := rfl
@[simp] theorem State.advance_rs (s : State) (evs : List Event) : (s.advance evs).rs = s.rs := rfl
@[simp] theorem State.advance_seqBroken (s : State) (evs : List Event) : (s.advance evs).seqBroken = s.seqBroken := rfl
@[simp] theorem State.advance_seq (s : State) (evs : List Event) : (s.advance evs).seq = s.seq := rfl
@[simp] theorem State.advance_params (s : State) (evs : List Event) : (s.advance evs).params = s.params := rfl
@[simp] theorem State.advance_port (s : State) (evs : List Event) : (s.advance evs).port = s.port := rfl
@[simp] theorem State.advance_replies (s : State) (evs : List Event) : (s.advance evs).replies = s.replies := rfl
@[simp] theorem State.advance_bus (s : State) (evs : List Event) :
    (s.advance evs).bus = s.bus.drop (callCount evs) := rfl
@[simp] theorem State.advance_trace (s : State) (evs : List Event) : (s.advance evs).trace = s.trace ++ evs := rfl

@[simp] theorem callCount_nil : callCount [] = 0 := rfl

@[simp] theorem callCount_append (l m : List Event) : callCount (l ++ m) = callCount l + callCount m := by
  simp [callCount]

@[simp] theorem callCount_write (a : DevAddr) (v : Byte) (l : List Event) :
    callCount (.write a v :: l) = callCount l + 1 :=
  List.countP_cons_of_pos rfl

@[simp] theorem callCount_read (a : DevAddr) (r : Answer) (l : List Event) :
    callCount (.read a r :: l) = callCount l + 1 := List.countP_cons_of_pos rfl

@[simp] theorem callCount_delay (ms : Ms) (l : List Event) : callCount (.delay ms :: l) = callCount l := by
  simp [callCount, isCall]

@[simp] theorem State.advance_nil (s : State) : s.advance [] = s := by simp [State.advance]

@[simp] theorem State.advance_advance (s : State) (l m : List Event) :
    (s.advance l).advance m = s.advance (l ++ m) := by
  simp [State.advance, List.drop_drop, List.append_assoc]

theorem State.afterDelay_eq (s : State) (ms : Ms) : s.afterDelay ms = s.advance [.delay ms] := by
  simp [State.afterDelay, State.advance]

theorem State.afterCall_eq (s : State) (c : Call) (r : Answer) :
    s.afterCall c r = s.advance [callEvent c r] := by
  cases c <;> simp [State.afterCall, State.advance, callEvent]

theorem State.grants_mono {s : State} {m n : Nat} (h : s.grants n) (hm : m ≤ n) : s.grants m :=
  fun j hj => h j (by omega)

theorem State.grants_advance {s : State} {n : Nat} {evs : List Event} (h : s.grants (callCount evs + n)) :
    (s.advance evs).grants n := by
  intro j hj
  obtain ⟨d, hd⟩ := h (callCount evs + j) (by omega)
  exact ⟨d, by simpa [List.getElem?_drop] using hd⟩

theorem State.grants_setRs {s : State} {n : Nat} (r : Bit) (h : s.grants n) : (s.setRs r).grants n := h

theorem State.failsAt_setRs {s : State} {k : Nat} {e : TransportError} (r : Bit) (h : s.failsAt k e) :
    (s.setRs r).failsAt k e := h

theorem State.failsAt_advance {s : State} {k : Nat} {evs : List Event} {e : TransportError}
    (h : s.failsAt (callCount evs + k) e) : (s.advance evs).failsAt k e :=
  ⟨State.grants_advance h.1, by simpa [List.getElem?_drop] using h.2⟩

/-! ### A fixed list of writes and delays -/

/-- Performing a list of writes and delays in order; the requests that never read are this and nothing more. -/
def perform : List Event → Op Unit
  | [] => pure ()
  | .write a v :: rest => do busWrite a v; perform rest
  | .read a _ :: rest => do let _ ← busRead a; perform rest
  | .delay ms :: rest => do delay ms; perform rest

theorem perform_append (l m : List Event) (s : State) :
    perform (l ++ m) s = match perform l s with
      | .ok _ t => perform m t
      | .error e t => .error e t := by
  induction l generalizing s with
  | nil => rfl
  | cons x l ih =>
    cases x <;> simp only [List.cons_append, perform, Op.bind_run] <;>
      split <;> simp_all

theorem busWrite_run (a : DevAddr) (v : Byte) (s : State) :
    busWrite a v s = match s.answerTo (.write a v) with
      | .ok _ => .ok () (s.advance [.write a v])
      | .err e => .error e (s.advance [.write a v]) := by
  simp only [busWrite, busCall, Op.bind_run]
  cases s.answerTo (.write a v) <;> simp [State.afterCall_eq, callEvent]

theorem busRead_run (a : DevAddr) (s : State) :
    busRead a s = match s.answerTo (.read a) with
      | .ok b => .ok b (s.advance [.read a (.ok b)])
      | .err e => .error e (s.advance [.read a (.err e)]) := by
  simp only [busRead, busCall]
  cases s.answerTo (.read a) <;> simp [State.afterCall_eq, callEvent]

theorem delay_eq (ms : Ms) (s : State) : delay ms s = .ok () (s.advance [.delay ms]) := by
  simp [delay_run, State.afterDelay_eq]

/-- No event of the list is a read. -/
def NoReads (evs : List Event) : Prop := ∀ e ∈ evs, readCount [e] = 0

theorem perform_ok {evs : List Event} {s : State} (hr : NoReads evs) (h : s.grants (callCount evs)) :
    perform evs s = .ok () (s.advance evs) := by
  induction evs generalizing s with
  | nil => simp [perform]
  | cons x l ih =>
    have hl : NoReads l := fun e he => hr e (List.mem_cons_of_mem _ he)
    cases x with
    | write a v =>
      obtain ⟨d, hd⟩ := h 0 (by simp)
      have ha := State.answerTo_of_bus (.write a v) hd
      have hg : (s.advance [.write a v]).grants (callCount l) :=
        State.grants_advance (State.grants_mono h (by simp [Nat.add_comm]))
      simp [perform, Op.bind_run, busWrite_run, ha, ih hl hg]
    | read a r => exact absurd (hr _ List.mem_cons_self) (by simp [readCount])
    | delay ms =>
      have hg : (s.advance [.delay ms]).grants (callCount l) :=
        State.grants_advance (State.grants_mono h (by simp))
      simp [perform, Op.bind_run, delay_eq, ih hl hg]

theorem perform_error {evs : List Event} {s : State} {k : Nat} {e : TransportError} (hr : NoReads evs)
    (hk : k < callCount evs) (h : s.failsAt k e) :
    perform evs s = .error e (s.advance (cutAfterCall k evs)) := by
  induction evs generalizing s k with
  | nil => simp at hk
  | cons x l ih =>
    have hl : NoReads l := fun e he => hr e (List.mem_cons_of_mem _ he)
    cases x with
    | write a v =>
      cases k with
      | zero =>
        have ha := State.answerTo_of_bus (.write a v) h.2
        simp [perform, Op.bind_run, busWrite_run, ha, cutAfterCall]
      | succ k =>
        obtain ⟨d, hd⟩ := h.1 0 (by omega)
        have ha := State.answerTo_of_bus (.write a v) hd
        have hf : (s.advance [.write a v]).failsAt k e :=
          State.failsAt_advance (by simpa [Nat.add_comm] using h)
        simp [perform, Op.bind_run, busWrite_run, ha, cutAfterCall, ih hl (by simpa using hk) hf]
    | read a r => exact absurd (hr _ List.mem_cons_self) (by simp [readCount])
    | delay ms =>
      have hf : (s.advance [.delay ms]).failsAt k e := State.failsAt_advance (by simpa using h)
      simp [perform, Op.bind_run, delay_eq, cutAfterCall, ih hl (by simpa using hk) hf]

/-- Performing events leaves every field but the answers and the trace as it was. -/
theorem perform_frame {evs : List Event} {s t : State} (h : perform evs s = .ok () t) :
    ∃ l, t = s.advance l := by
  induction evs generalizing s with
  | nil => exact ⟨[], by simpa [perform, eq_comm] using h⟩
  | cons x l ih =>
    cases x with
    | write a v =>
      simp only [perform, Op.bind_run, busWrite_run] at h
      cases ha : s.answerTo (.write a v) with
      | ok b =>
        simp only [ha] at h
        obtain ⟨m, rfl⟩ := ih h
        exact ⟨_, State.advance_advance _ _ _⟩
      | err e => simp [ha] at h
    | read a r =>
      simp only [perform, Op.bind_run, busRead_run] at h
      cases ha : s.answerTo (.read a) with
      | ok b =>
        simp only [ha] at h
        obtain ⟨m, rfl⟩ := ih h
        exact ⟨_, State.advance_advance _ _ _⟩
      | err e => simp [ha] at h
    | delay ms =>
      simp only [perform, Op.bind_run, delay_eq] at h
      obtain ⟨m, rfl⟩ := ih h
      exact ⟨_, State.advance_advance _ _ _⟩

/-- Whatever the transport answers, events that go through have all happened. -/
theorem perform_eq_advance {evs : List Event} {s t : State} (hr : NoReads evs) (h : perform evs s = .ok () t) :
    t = s.advance evs := by
  induction evs generalizing s with
  | nil => simpa [perform, eq_comm] using h
  | cons x l ih =>
    have hl : NoReads l := fun e he => hr e (List.mem_cons_of_mem _ he)
    cases x with
    | write a v =>
      simp only [perform, Op.bind_run, busWrite_run] at h
      cases ha : s.answerTo (.write a v) with
      | ok b =>
        simp only [ha] at h
        rw [ih hl h]
        exact State.advance_advance _ _ _
      | err e => simp [ha] at h
    | read a r => exact absurd (hr _ (List.mem_cons_self ..)) (by simp [readCount])
    | delay ms =>
      simp only [perform, Op.bind_run, delay_eq] at h
      rw [ih hl h]
      exact State.advance_advance _ _ _

/-! ### The micro-operations -/

/-- A piece of a request that performs `l`, followed by one that performs `m` wherever it starts from. -/
theorem bind_perform {x : Op Unit} {f : Unit → Op Unit} {s : State} {l m : List Event} (hx : x s = perform l s)
    (hf : ∀ n, f () (s.advance n) = perform m (s.advance n)) : (x >>= f) s = perform (l ++ m) s := by
  rw [Op.bind_run, perform_append, hx]
  cases h : perform l s with
  | error e t => rfl
  | ok u t =>
    obtain ⟨n, rfl⟩ := perform_frame h
    exact hf n

theorem reg_run (v : Byte) (s : State) : reg v s = perform [.write s.addr v, .delay s.params.tWrite] s := by
  simp only [reg, perform, Op.bind_run, Op.get_run, busWrite_run]
  cases s.answerTo (.write s.addr v) <;> simp [delay_eq]

theorem nib_run (n : Nibble) (s : State) :
    nib n s = perform (strobeEvents s.addr s.params.tWrite (wire n s.bl 0 s.rs)) s := by
  rw [nib, Op.bind_run]
  refine bind_perform (l := [_, _]) (m := [_, _] ++ [_, _]) (reg_run _ s) fun _ => ?_
  exact bind_perform (f := fun _ => reg _) (reg_run _ _) fun _ => reg_run _ _

theorem wire_high (b : Byte) (bl rs : Bit) :
    wire (highNibble b) bl 0 rs = (b &&& 0xF0) ||| lineMask bl rs := by
  revert b bl rs; decide

theorem wire_low (b : Byte) (bl rs : Bit) :
    wire (lowNibble b) bl 0 rs = ((b &&& 0x0F) <<< 4) ||| lineMask bl rs := by
  revert b bl rs; decide

theorem byteTransfer_run (b : Byte) (rs : Bit) (s : State) :
    byteTransfer b rs s = perform (byteEvents s.addr s.params.tWrite s.bl b rs) (s.setRs rs) := by
  rw [byteTransfer, Op.bind_run, Op.modify_run, byteEvents]
  exact bind_perform (by rw [nib_run, State.setRs_bl, State.setRs_rs, wire_high]; rfl)
    fun _ => by rw [nib_run]; simp only [State.advance_bl, State.advance_rs, State.setRs_bl, State.setRs_rs, wire_low]; rfl

end Sys2Proof.Machine
end

