-- ==== Sys2Proof/Laws/Transfers.lean ====
section
/-! SUPPORT. What a sequence of byte transfers does (40_sequencer.md R61 to R63): its whole state when every write is
answered `ok`, and its whole state when one is not; that the text emission (43_layout.md R88) and INIT's commands are such
sequences; and the same for INIT's raw nibbles. -/

namespace Sys2Proof.Machine

/-! ### The shape of the traces -/

@[simp] theorem callCount_strobeEvents (a : DevAddr) (t : Ms) (x : Byte) : callCount (strobeEvents a t x) = 3 := rfl

@[simp] theorem callCount_byteEvents (a : DevAddr) (t : Ms) (bl : Bit) (b : Byte) (rs : Bit) :
    callCount (byteEvents a t bl b rs) = 6 := by simp [byteEvents]

@[simp] theorem transferEvents_nil (a : DevAddr) (t : Ms) (bl : Bit) : transferEvents a t bl [] = [] := rfl

@[simp] theorem transferEvents_cons (a : DevAddr) (t : Ms) (bl : Bit) (x : Byte × Bit) (l : List (Byte × Bit)) :
    transferEvents a t bl (x :: l) = byteEvents a t bl x.1 x.2 ++ transferEvents a t bl l := rfl

@[simp] theorem transferEvents_append (a : DevAddr) (t : Ms) (bl : Bit) (l m : List (Byte × Bit)) :
    transferEvents a t bl (l ++ m) = transferEvents a t bl l ++ transferEvents a t bl m := by
  simp [transferEvents]

@[simp] theorem callCount_transferEvents (a : DevAddr) (t : Ms) (bl : Bit) (l : List (Byte × Bit)) :
    callCount (transferEvents a t bl l) = 6 * l.length := by
  induction l with
  | nil => rfl
  | cons x l ih => simp [ih]; omega

@[simp] theorem callCount_rawNibbleEvents (a : DevAddr) (t : Ms) (bl : Bit) (n : Byte) :
    callCount (rawNibbleEvents a t bl n) = 3 := by simp [rawNibbleEvents]

theorem noReads_append {l m : List Event} (hl : NoReads l) (hm : NoReads m) : NoReads (l ++ m) :=
  fun e he => (List.mem_append.1 he).elim (hl e) (hm e)

theorem noReads_strobeEvents (a : DevAddr) (t : Ms) (x : Byte) : NoReads (strobeEvents a t x) := by
  intro e he
  simp only [strobeEvents, List.mem_cons, List.not_mem_nil, or_false] at he
  rcases he with rfl | rfl | rfl | rfl | rfl | rfl <;> rfl

theorem noReads_byteEvents (a : DevAddr) (t : Ms) (bl : Bit) (b : Byte) (rs : Bit) : NoReads (byteEvents a t bl b rs) :=
  noReads_append (noReads_strobeEvents _ _ _) (noReads_strobeEvents _ _ _)

theorem noReads_rawNibbleEvents (a : DevAddr) (t : Ms) (bl : Bit) (n : Byte) : NoReads (rawNibbleEvents a t bl n) :=
  noReads_append (noReads_strobeEvents _ _ _) fun e he => by
    obtain rfl := List.mem_singleton.1 he
    rfl

/-- Cutting a trace after a call that lies in its second part. -/
theorem cutAfterCall_append {l m : List Event} {k : Nat} :
    cutAfterCall (callCount l + k) (l ++ m) = l ++ cutAfterCall k m := by
  induction l with
  | nil => simp
  | cons x l ih =>
    cases x <;> simp [cutAfterCall, ih, Nat.add_right_comm]

/-- Cutting a trace after a call that lies in its first part. -/
theorem cutAfterCall_left {l m : List Event} {k : Nat} (h : k < callCount l) :
    cutAfterCall k (l ++ m) = cutAfterCall k l := by
  induction l generalizing k with
  | nil => simp at h
  | cons x l ih =>
    cases x <;> cases k <;> simp_all [cutAfterCall]

@[simp] theorem callCount_cutAfterCall {l : List Event} {k : Nat} (h : k < callCount l) :
    callCount (cutAfterCall k l) = k + 1 := by
  induction l generalizing k with
  | nil => simp at h
  | cons x l ih =>
    cases x <;> cases k <;> simp_all [cutAfterCall]

/-! ### A byte transfer -/

theorem byteTransfer_ok {s : State} (b : Byte) (rs : Bit) (h : s.grants 6) :
    byteTransfer b rs s = .ok () ((s.setRs rs).advance (byteEvents s.addr s.params.tWrite s.bl b rs)) := by
  rw [byteTransfer_run]
  exact perform_ok (noReads_byteEvents _ _ _ _ _) (State.grants_setRs rs (by simpa using h))

theorem byteTransfer_error {s : State} (b : Byte) (rs : Bit) {k : Nat} {e : TransportError} (hk : k < 6)
    (h : s.failsAt k e) :
    byteTransfer b rs s =
      .error e ((s.setRs rs).advance (cutAfterCall k (byteEvents s.addr s.params.tWrite s.bl b rs))) := by
  rw [byteTransfer_run]
  exact perform_error (noReads_byteEvents _ _ _ _ _) (by simpa using hk) (State.failsAt_setRs rs h)

/-! ### A sequence of byte transfers -/

/-- The byte transfers of a list, in order. -/
def sendAll : List (Byte × Bit) → Op Unit
  | [] => pure ()
  | x :: rest => do byteTransfer x.1 x.2; sendAll rest

theorem sendAll_append (l m : List (Byte × Bit)) (s : State) :
    sendAll (l ++ m) s = (do sendAll l; sendAll m : Op Unit) s := by
  induction l generalizing s with
  | nil => rfl
  | cons x l ih =>
    simp only [List.cons_append, sendAll, Op.bind_run]
    cases byteTransfer x.1 x.2 s with
    | error e t => rfl
    | ok u t => simp [ih, Op.bind_run]

/-- The register select after a list of transfers that started with `r`. -/
def lastRs (r : Bit) (l : List (Byte × Bit)) : Bit := (l.getLastD (0, r)).2

@[simp] theorem lastRs_nil (r : Bit) : lastRs r [] = r := rfl

@[simp] theorem lastRs_cons (r : Bit) (x : Byte × Bit) (l : List (Byte × Bit)) : lastRs r (x :: l) = lastRs x.2 l := by
  cases l <;> rfl

theorem sendAll_ok {l : List (Byte × Bit)} {s : State} (h : s.grants (6 * l.length)) :
    sendAll l s = .ok () ((s.setRs (lastRs s.rs l)).advance (transferEvents s.addr s.params.tWrite s.bl l)) := by
  induction l generalizing s with
  | nil => cases s; simp [sendAll, State.setRs]
  | cons x l ih =>
    have h6 : s.grants 6 := State.grants_mono h (by simp)
    have hl : ((s.setRs x.2).advance (byteEvents s.addr s.params.tWrite s.bl x.1 x.2)).grants (6 * l.length) :=
      State.grants_advance (s := s.setRs x.2) (State.grants_mono (s := s.setRs x.2) h (by simp; omega))
    rw [sendAll, Op.bind_ok (byteTransfer_ok _ _ h6), ih hl]
    simp only [State.advance_addr, State.advance_params, State.advance_bl, State.advance_rs, State.setRs_addr,
      State.setRs_params, State.setRs_bl, State.setRs_rs, transferEvents_cons, lastRs_cons]
    exact congrArg _ (State.advance_advance (s.setRs (lastRs x.2 l)) _ _)

theorem sendAll_error {l : List (Byte × Bit)} {s : State} {k : Nat} {e : TransportError} (hk : k < 6 * l.length)
    (h : s.failsAt k e) :
    sendAll l s = .error e ((s.setRs (l.getD (k / 6) (0, 0)).2).advance
      (cutAfterCall k (transferEvents s.addr s.params.tWrite s.bl l))) := by
  induction l generalizing s k with
  | nil => simp at hk
  | cons x l ih =>
    rw [sendAll, transferEvents_cons]
    by_cases h6 : k < 6
    · rw [Op.bind_error (byteTransfer_error _ _ h6 h), cutAfterCall_left (by simpa using h6)]
      simp [Nat.div_eq_of_lt h6]
    · obtain ⟨j, rfl⟩ : ∃ j, k = 6 + j := ⟨k - 6, by omega⟩
      have hg : s.grants 6 := State.grants_mono h.1 (by omega)
      have hf : ((s.setRs x.2).advance (byteEvents s.addr s.params.tWrite s.bl x.1 x.2)).failsAt j e :=
        State.failsAt_advance (s := s.setRs x.2) (State.failsAt_setRs _ (by simpa using h))
      have hj : (6 + j) / 6 = j / 6 + 1 := by omega
      rw [Op.bind_ok (byteTransfer_ok _ _ hg), ih (by simp at hk; omega) hf, hj]
      have hc := cutAfterCall_append (l := byteEvents s.addr s.params.tWrite s.bl x.1 x.2)
        (m := transferEvents s.addr s.params.tWrite s.bl l) (k := j)
      rw [callCount_byteEvents] at hc
      rw [hc]
      simp only [State.advance_addr, State.advance_params, State.advance_bl, State.setRs_addr, State.setRs_params,
        State.setRs_bl, List.getD_cons_succ]
      exact congrArg _ (State.advance_advance (s.setRs (l.getD (j / 6) (0, 0)).2) _ _)

theorem byteTransfer_eq_advance {b : Byte} {rs : Bit} {s t : State} (h : byteTransfer b rs s = .ok () t) :
    t = (s.setRs rs).advance (byteEvents s.addr s.params.tWrite s.bl b rs) := by
  rw [byteTransfer_run] at h
  exact perform_eq_advance (noReads_byteEvents _ _ _ _ _) h

/-- Whatever the transport answers, byte transfers that go through have emitted their whole trace. -/
theorem sendAll_eq_advance {l : List (Byte × Bit)} {s t : State} (h : sendAll l s = .ok () t) :
    t = (s.setRs (lastRs s.rs l)).advance (transferEvents s.addr s.params.tWrite s.bl l) := by
  induction l generalizing s with
  | nil => cases s; simp_all [sendAll, State.setRs]
  | cons x l ih =>
    simp only [sendAll, Op.bind_run] at h
    cases hx : byteTransfer x.1 x.2 s with
    | error e u => simp [hx] at h
    | ok u v =>
      simp only [hx] at h
      rw [ih h, byteTransfer_eq_advance hx]
      simp only [State.advance_addr, State.advance_params, State.advance_bl, State.advance_rs, State.setRs_addr,
        State.setRs_params, State.setRs_bl, State.setRs_rs, transferEvents_cons, lastRs_cons]
      exact State.advance_advance (s.setRs (lastRs x.2 l)) _ _

theorem cmd_eq (b : Byte) : cmd b = sendAll [(b, 0)] := by
  funext s
  simp only [cmd, sendAll, Op.bind_run]
  cases byteTransfer b 0 s <;> rfl

theorem dat_eq (b : Byte) : dat b = sendAll [(b, 1)] := by
  funext s
  simp only [dat, sendAll, Op.bind_run]
  cases byteTransfer b 1 s <;> rfl

/-! ### Text is a sequence of byte transfers -/

theorem emitChar_eq (prev : Option Byte) (p t : Byte) :
    emitChar prev p t = sendAll ((if needsPosition prev p then [(p, 0)] else []) ++ [(t, 1)]) := by
  funext s
  rw [emitChar, sendAll_append, ← dat_eq]
  cases needsPosition prev p
  · rfl
  · simp only [if_true, ← cmd_eq]

/-- The transfers of the characters from number `k` on. -/
def textTransfersFrom (mode : WrapOtherRows) (col : Byte) (row : Row) : Nat → List Byte → List (Byte × Bit)
  | _, [] => []
  | k, t :: rest => charTransfers mode col row k t ++ textTransfersFrom mode col row (k + 1) rest

theorem textTransfersFrom_eq (mode : WrapOtherRows) (col : Byte) (row : Row) (k : Nat) (text : List Byte) :
    textTransfersFrom mode col row k text =
      (text.zipIdx k).flatMap fun x => charTransfers mode col row x.2 x.1 := by
  induction text generalizing k with
  | nil => rfl
  | cons t rest ih => simp [textTransfersFrom, ih]

/-- The address before character `k`, as `emit` carries it. -/
def prevAddr (mode : WrapOtherRows) (col : Byte) (row : Row) (k : Nat) : Option Byte :=
  if k = 0 then none else some (cellAddr mode (k - 1) col row)

/-- The machine's address computation is the spec's, written out (43_layout.md R83). -/
theorem caddr_eq (c : Nat) (r : Row) : caddr c r = rowColumnByte c r := by
  have h : (rowBase r).toNat = [0x80, 0xC0, 0x94, 0xD4].getD r.toNat 0 := by revert r; decide
  apply BitVec.eq_of_toNat_eq
  simp [caddr, rowColumnByte, h]

/-- The machine's placement is the spec's, written out (43_layout.md R87). -/
theorem cellAddr_eq (mode : WrapOtherRows) (k : Nat) (col : Byte) (row : Row) :
    cellAddr mode k col row = cellByte mode col row k := by
  have hw : wrapIndex col = max 1 (16 - col.toNat) := rfl
  by_cases hk : k = 0
  · subst hk
    simp only [cellAddr, cellByte, caddr_eq, place, hw, if_true]
    repeat' split
    all_goals simp_all
  by_cases hr : row = 0
  · simp only [cellAddr, cellByte, caddr_eq, place, hr, hw, hk, if_true, if_false]
    repeat' split
    all_goals first | rfl | omega | (congr 1; omega)
  · simp only [cellAddr, cellByte, caddr_eq, place, hr, hk, if_false]
    cases mode <;> rfl

theorem needsPosition_prevAddr (mode : WrapOtherRows) (col : Byte) (row : Row) (k : Nat) :
    needsPosition (prevAddr mode col row k) (cellAddr mode k col row) = startsRun mode col row k := by
  cases k <;> simp [prevAddr, needsPosition, startsRun, cellAddr_eq]

theorem emitFrom_eq (mode : WrapOtherRows) (col : Byte) (row : Row) (k : Nat) (text : List Byte) :
    emitFrom mode col row k (prevAddr mode col row k) text = sendAll (textTransfersFrom mode col row k text) := by
  induction text generalizing k with
  | nil => rfl
  | cons t rest ih =>
    funext s
    have hp : some (cellAddr mode k col row) = prevAddr mode col row (k + 1) := by simp [prevAddr]
    rw [emitFrom, textTransfersFrom, sendAll_append, emitChar_eq, hp, ih (k + 1), needsPosition_prevAddr, cellAddr_eq]
    rfl

/-- `emit` is its transfers (43_layout.md R88). -/
theorem emit_run (col : Byte) (row : Row) (text : List Byte) (s : State) :
    emit col row text s = sendAll (textTransfers s.params.wrapOtherRows col row text) s := by
  cases text with
  | nil => simp [emit, Op.bind_run, textTransfers, cmd_eq, caddr_eq]
  | cons t rest =>
    have h := emitFrom_eq s.params.wrapOtherRows col row 0 (t :: rest)
    simp only [prevAddr, if_true, textTransfersFrom_eq] at h
    simp [emit, Op.bind_run, textTransfers, h]

/-! ### The raw nibbles of INIT -/

theorem preambleNibble_run (n : Nibble) (s : State) (hrs : s.rs = 0) :
    preambleNibble n s =
      perform (rawNibbleEvents s.addr s.params.tWrite s.bl (n.setWidth 8 <<< 4)) s := by
  have hw : ∀ (m : Nibble) (bl : Bit), wire m bl 0 0 = (m.setWidth 8 <<< 4) ||| lineMask bl 0 := by decide
  rw [preambleNibble, rawNibbleEvents, ← hw]
  refine bind_perform (by rw [nib_run, hrs]) fun _ => ?_
  simp only [Config.tInitGap]
  rfl

theorem preamble3_run (n : Nat) (s : State) (hrs : s.rs = 0) :
    preamble3 n s =
      perform (List.replicate n (rawNibbleEvents s.addr s.params.tWrite s.bl 0x30)).flatten s := by
  induction n generalizing s with
  | zero => rfl
  | succ n ih =>
    rw [preamble3, List.replicate_succ, List.flatten_cons]
    exact bind_perform (preambleNibble_run 3 s hrs) fun l => ih _ hrs

/-- INIT's events from the preamble on (41_lcd_ops.md R68). -/
theorem init_run {s : State} {a : DevAddr} (n : Nat) (ha : s.addr = a) (hr : s.rs = 0) :
    (do preamble3 n; preambleNibble 0x2; cmd 0x28; cmd 0x0C; cmd 0x06; cmd 0x01 : Op Unit) s =
      perform (initEvents a s.params.tWrite s.bl n) s := by
  subst ha
  have command : ∀ (t : State) (b : Byte), t.rs = 0 →
      cmd b t = perform (byteEvents t.addr t.params.tWrite t.bl b 0) t := by
    intro t b h
    rw [cmd, byteTransfer_run]
    cases t
    simp only at h
    subst h
    rfl
  rw [initEvents, List.append_assoc]
  refine bind_perform (preamble3_run _ _ hr) fun _ => bind_perform (preambleNibble_run _ _ hr) fun _ => ?_
  simp only [transferEvents_cons, transferEvents_nil, List.append_nil]
  exact bind_perform (command _ _ hr) fun _ => bind_perform (command _ _ hr) fun _ =>
    bind_perform (f := fun _ => cmd 1) (command _ _ hr) fun _ => command _ _ hr

theorem noReads_initEvents (a : DevAddr) (t : Ms) (bl : Bit) (n : Nat) : NoReads (initEvents a t bl n) := by
  refine noReads_append (noReads_append ?_ (noReads_rawNibbleEvents _ _ _ _)) ?_
  · induction n with
    | zero => intro e h; simp at h
    | succ n ih =>
      rw [List.replicate_succ, List.flatten_cons]
      exact noReads_append (noReads_rawNibbleEvents _ _ _ _) ih
  · simp only [transferEvents_cons, transferEvents_nil, List.append_nil]
    exact noReads_append (noReads_byteEvents _ _ _ _ _) (noReads_append (noReads_byteEvents _ _ _ _ _)
      (noReads_append (noReads_byteEvents _ _ _ _ _) (noReads_byteEvents _ _ _ _ _)))

@[simp] theorem callCount_initEvents (a : DevAddr) (t : Ms) (bl : Bit) (n : Nat) :
    callCount (initEvents a t bl n) = 3 * (n + 1) + 24 := by
  have raw : ∀ n, callCount (List.replicate n (rawNibbleEvents a t bl 0x30)).flatten = 3 * n := by
    intro n
    induction n with
    | zero => rfl
    | succ n ih => rw [List.replicate_succ, List.flatten_cons, callCount_append, ih, callCount_rawNibbleEvents]; omega
  rw [initEvents, callCount_append, callCount_append, raw, callCount_rawNibbleEvents, callCount_transferEvents]
  simp
  omega

end Sys2Proof.Machine
end

