-- ==== Sys2Proof/Laws/Observers.lean ====
section
/-! SUPPORT. The observers of Safety on the traces the block emits: what byte transfers latch and read back as
(20_memory.md R36; 40_sequencer.md R61), how many transfers a text takes (43_layout.md R89), and the counts of events
(70_reset_and_hazards.md R121). -/

namespace Sys2Proof.Machine

/-! ### Latching and reading back -/

theorem bytesTo_append (a : DevAddr) (l m : List Event) : bytesTo a (l ++ m) = bytesTo a l ++ bytesTo a m := by
  induction l with
  | nil => rfl
  | cons x l ih =>
    cases x <;> simp [bytesTo, ih]
    split <;> rfl

/-- A strobe whose first byte is `x` latches the nibble of `x` once. -/
theorem latched_strobe {p x : Byte} (hp : p &&& 4 = 0) (hx : x &&& 4 = 0) (rest : List Byte) :
    latched p ([x, x ||| 4, x] ++ rest) = (x.extractLsb' 4 4, x.extractLsb' 0 1) :: latched x rest := by
  have facts : ∀ x : Byte, x &&& 4 = 0 → (x ||| 4) &&& 4 = 4 ∧ (x ||| 4).extractLsb' 4 4 = x.extractLsb' 4 4 ∧
      (x ||| 4).extractLsb' 0 1 = x.extractLsb' 0 1 := by decide
  obtain ⟨he, hn, hr⟩ := facts x hx
  simp only [List.cons_append, List.nil_append, latched, hp, hx, he, hn, hr]
  simp

/-- A byte transfer latches its high nibble and then its low nibble, and leaves E low. -/
theorem latched_byteEvents {p : Byte} (hp : p &&& 4 = 0) (a : DevAddr) (t : Ms) (bl : Bit) (x : Byte × Bit)
    (rest : List Byte) :
    ∃ q : Byte, q &&& 4 = 0 ∧ latched p (bytesTo a (byteEvents a t bl x.1 x.2) ++ rest) =
      (x.1.extractLsb' 4 4, x.2) :: (x.1.extractLsb' 0 4, x.2) :: latched q rest := by
  obtain ⟨b, rs⟩ := x
  have facts : ∀ (b : Byte) (bl rs : Bit),
      ((b &&& 0xF0) ||| lineMask bl rs) &&& 4 = 0 ∧ (((b &&& 0x0F) <<< 4) ||| lineMask bl rs) &&& 4 = 0 ∧
      ((b &&& 0xF0) ||| lineMask bl rs).extractLsb' 4 4 = b.extractLsb' 4 4 ∧
      ((b &&& 0xF0) ||| lineMask bl rs).extractLsb' 0 1 = rs ∧
      (((b &&& 0x0F) <<< 4) ||| lineMask bl rs).extractLsb' 4 4 = b.extractLsb' 0 4 ∧
      (((b &&& 0x0F) <<< 4) ||| lineMask bl rs).extractLsb' 0 1 = rs := by decide
  obtain ⟨hh, hl, h1, h2, h3, h4⟩ := facts b bl rs
  refine ⟨_, hl, ?_⟩
  have hb : bytesTo a (byteEvents a t bl b rs) =
      [(b &&& 0xF0) ||| lineMask bl rs, (b &&& 0xF0) ||| lineMask bl rs ||| 4, (b &&& 0xF0) ||| lineMask bl rs] ++
        [((b &&& 0x0F) <<< 4) ||| lineMask bl rs, ((b &&& 0x0F) <<< 4) ||| lineMask bl rs ||| 4,
          ((b &&& 0x0F) <<< 4) ||| lineMask bl rs] := by
    simp [byteEvents, strobeEvents, bytesTo]
  rw [hb, List.append_assoc, latched_strobe hp hh, latched_strobe hh hl, h1, h2, h3, h4]

theorem latched_transferEvents (a : DevAddr) (t : Ms) (bl : Bit) (l : List (Byte × Bit)) {p : Byte} (hp : p &&& 4 = 0) :
    latched p (bytesTo a (transferEvents a t bl l)) = nibblesOf l := by
  induction l generalizing p with
  | nil => rfl
  | cons x l ih =>
    obtain ⟨q, hq, h⟩ := latched_byteEvents hp a t bl x (bytesTo a (transferEvents a t bl l))
    rw [transferEvents_cons, bytesTo_append, h, ih hq]
    rfl

@[simp] theorem bytesOfNibbles_nibblesOf (l : List (Byte × Bit)) : bytesOfNibbles (nibblesOf l) = l := by
  have whole : ∀ b : Byte, (b.extractLsb' 4 4 ++ b.extractLsb' 0 4 : BitVec 8) = b := by decide
  induction l with
  | nil => rfl
  | cons x l ih => exact congrArg₂ List.cons (Prod.ext (whole x.1) rfl) ih

/-- What the display reads back from byte transfers is those transfers. -/
theorem readBack_transferEvents (a : DevAddr) (t : Ms) (bl : Bit) (l : List (Byte × Bit)) {p : Byte} (hp : p &&& 4 = 0) :
    readBack p a (transferEvents a t bl l) = l := by
  rw [readBack, latched_transferEvents a t bl l hp, bytesOfNibbles_nibblesOf]

/-- Writes to another device write nothing to `a`. -/
theorem bytesTo_of_other {a b : DevAddr} {evs : List Event} (hab : b ≠ a)
    (h : ∀ e ∈ evs, (∃ v, e = .write b v) ∨ ∃ ms, e = .delay ms) : bytesTo a evs = [] := by
  induction evs with
  | nil => rfl
  | cons x l ih =>
    have ih := ih fun e he => h e (List.mem_cons_of_mem _ he)
    rcases h x List.mem_cons_self with ⟨v, rfl⟩ | ⟨ms, rfl⟩ <;> simp [bytesTo, hab, ih]

/-- Byte transfers leave E low, whatever was written before. -/
theorem getLast?_bytesTo_transferEvents (a : DevAddr) (t : Ms) (bl : Bit) {l : List (Byte × Bit)} (hl : l ≠ [])
    (before : List Byte) :
    ∃ p, (before ++ bytesTo a (transferEvents a t bl l)).getLast? = some p ∧ p &&& 0x04 = 0x00 := by
  have low : ∀ (b : Byte) (bl rs : Bit), (((b &&& 0x0F) <<< 4) ||| lineMask bl rs) &&& 0x04 = 0x00 := by decide
  induction l generalizing before with
  | nil => exact absurd rfl hl
  | cons x l ih =>
    rw [transferEvents_cons, bytesTo_append, ← List.append_assoc]
    by_cases h : l = []
    · subst h
      exact ⟨_, by simp [byteEvents, strobeEvents, bytesTo], low x.1 bl x.2⟩
    · exact ih h _

/-! ### How many transfers a text takes -/

theorem length_textTransfersFrom (mode : WrapOtherRows) (col : Byte) (row : Row) (k : Nat) (text : List Byte) :
    (textTransfersFrom mode col row k text).length =
      text.length + (List.range' k text.length).countP (startsRun mode col row) := by
  induction text generalizing k with
  | nil => rfl
  | cons t rest ih =>
    simp only [textTransfersFrom, charTransfers, List.length_append, ih, List.length_cons, List.range'_succ,
      List.countP_cons]
    cases startsRun mode col row k <;> simp only [if_true, List.length_nil, List.length_cons] <;> simp <;> omega

theorem length_textTransfers (mode : WrapOtherRows) (col : Byte) (row : Row) (text : List Byte) :
    (textTransfers mode col row text).length = text.length + positionings mode col row text.length := by
  cases text with
  | nil => rfl
  | cons t rest =>
    have h := length_textTransfersFrom mode col row 0 (t :: rest)
    rw [textTransfersFrom_eq] at h
    simpa only [textTransfers, positionings, reduceCtorEq, if_false, List.range_eq_range', List.length_cons,
      Nat.succ_ne_zero] using h

/-! ### Counts -/

@[simp] theorem writeCount_append (l m : List Event) : writeCount (l ++ m) = writeCount l + writeCount m := by
  simp [writeCount]

@[simp] theorem readCount_append (l m : List Event) : readCount (l ++ m) = readCount l + readCount m := by
  simp [readCount]

@[simp] theorem delayCount_append (l m : List Event) : delayCount (l ++ m) = delayCount l + delayCount m := by
  simp [delayCount]

@[simp] theorem delaySum_append (l m : List Event) : delaySum (l ++ m) = delaySum l + delaySum m := by
  induction l with
  | nil => simp [delaySum]
  | cons x l ih => cases x <;> simp [delaySum, ih, Nat.add_assoc]

/-- The counts of byte transfers, all at once. -/
theorem counts_transferEvents (a : DevAddr) (t : Ms) (bl : Bit) (l : List (Byte × Bit)) :
    writeCount (transferEvents a t bl l) = 6 * l.length ∧ readCount (transferEvents a t bl l) = 0 ∧
      delayCount (transferEvents a t bl l) = 6 * l.length ∧
      delaySum (transferEvents a t bl l) = 6 * l.length * t.toNat := by
  have one : ∀ x : Byte × Bit, writeCount (byteEvents a t bl x.1 x.2) = 6 ∧ readCount (byteEvents a t bl x.1 x.2) = 0 ∧
      delayCount (byteEvents a t bl x.1 x.2) = 6 ∧ delaySum (byteEvents a t bl x.1 x.2) = 6 * t.toNat := by
    intro x
    refine ⟨rfl, rfl, rfl, ?_⟩
    simp only [byteEvents, strobeEvents, List.cons_append, List.nil_append, delaySum]
    omega
  induction l with
  | nil => exact ⟨rfl, rfl, rfl, by simp [delaySum]⟩
  | cons x l ih =>
    obtain ⟨h1, h2, h3, h4⟩ := one x
    obtain ⟨i1, i2, i3, i4⟩ := ih
    simp only [transferEvents_cons, writeCount_append, readCount_append, delayCount_append, delaySum_append, h1, h2, h3, h4,
      i1, i2, i3, i4, List.length_cons]
    exact ⟨by omega, trivial, by omega, by ring⟩

end Sys2Proof.Machine
end

