-- ==== Sys2Proof/Laws/Paths.lean ====
section
/-! SUPPORT. Everything a piece of a request can do, whatever the transport answers: which fields it leaves alone, which
events it emits, how many answers it uses up, and where it stops (00_scope.md R9; 60_exceptions.md R94, R99). -/

namespace Sys2Proof.Machine

/-- From `s` to `t` a piece of a request emitted `evs`, and stopped at its last event if it failed with an error. -/
structure Path (s t : State) (evs : List Event) (failed : Option TransportError) : Prop where
  trace : t.trace = s.trace ++ evs
  bus : t.bus = s.bus.drop (callCount evs)
  seq : t.seq = s.seq
  seqBroken : t.seqBroken = s.seqBroken
  params : t.params = s.params
  port : t.port = s.port
  replies : t.replies = s.replies
  addr : t.addr = s.addr
  bl : t.bl = s.bl
  oks : ∀ j, j < callCount evs → (failed.isSome = true → j + 1 < callCount evs) → j < s.bus.length →
    ∃ d, s.bus[j]? = some (.ok d)
  stop : ∀ e, failed = some e → ∃ pre x, evs = pre ++ [x] ∧ isCall x = true ∧
    (callCount evs ≤ s.bus.length → s.bus[callCount evs - 1]? = some (.err e))

theorem Path.refl (s : State) : Path s s [] none := by
  constructor <;> simp

theorem Path.trans {s t u : State} {l m : List Event} {failed : Option TransportError} (h : Path s t l none)
    (k : Path t u m failed) : Path s u (l ++ m) failed := by
  constructor
  · rw [k.trace, h.trace, List.append_assoc]
  · rw [k.bus, h.bus, List.drop_drop, callCount_append]
  · rw [k.seq, h.seq]
  · rw [k.seqBroken, h.seqBroken]
  · rw [k.params, h.params]
  · rw [k.port, h.port]
  · rw [k.replies, h.replies]
  · rw [k.addr, h.addr]
  · rw [k.bl, h.bl]
  · intro j hj hf hlen
    by_cases hl : j < callCount l
    · exact h.oks j hl (by simp) hlen
    · obtain ⟨i, rfl⟩ : ∃ i, j = callCount l + i := ⟨j - callCount l, by omega⟩
      rw [callCount_append] at hj hf
      obtain ⟨d, hd⟩ := k.oks i (by omega) (fun h' => by have := hf h'; omega) (by rw [h.bus, List.length_drop]; omega)
      exact ⟨d, by rwa [h.bus, List.getElem?_drop] at hd⟩
  · intro e he
    obtain ⟨pre, x, rfl, hx, hs⟩ := k.stop e he
    refine ⟨l ++ pre, x, by simp, hx, fun hlen => ?_⟩
    have hc : 0 < callCount (pre ++ [x]) := by
      simp [callCount, hx]
    rw [callCount_append] at hlen ⊢
    have h2 := hs (by rw [h.bus, List.length_drop]; omega)
    rw [h.bus, List.getElem?_drop] at h2
    rw [← h2]
    congr 1
    omega

/-- Where a piece of a request that started from `s` got to: along a path whose events all satisfy `P`, which is told the
device address, the backlight and the parameters they are emitted under. -/
def Lands {α : Type} (P : DevAddr → Bit → Params → Event → Prop) (s : State)
    (r : EStateM.Result TransportError State α) : Prop :=
  match r with
  | .ok _ t => ∃ evs, Path s t evs none ∧ ∀ e ∈ evs, P s.addr s.bl s.params e
  | .error err t => ∃ evs, Path s t evs (some err) ∧ ∀ e ∈ evs, P s.addr s.bl s.params e

/-- A piece of a request whose events all satisfy `P`; it leaves every field alone but `RS`, the answers and the trace. -/
def Op.Obeys {α : Type} (P : DevAddr → Bit → Params → Event → Prop) (x : Op α) : Prop := ∀ s, Lands P s (x s)

variable {P : DevAddr → Bit → Params → Event → Prop}

theorem Op.obeys_pure {α : Type} (a : α) : Op.Obeys P (pure a : Op α) :=
  fun s => ⟨[], Path.refl s, by simp⟩

theorem Lands.after {β : Type} {s t : State} {l : List Event} {r : EStateM.Result TransportError State β}
    (p : Path s t l none) (hl : ∀ e ∈ l, P s.addr s.bl s.params e) (h : Lands P t r) : Lands P s r := by
  have step : ∀ m : List Event, (∀ e ∈ m, P t.addr t.bl t.params e) → ∀ e ∈ l ++ m, P s.addr s.bl s.params e :=
    fun m hm e he => (List.mem_append.1 he).elim (hl e) fun h' => by
      simpa [p.addr, p.bl, p.params] using hm e h'
  cases r with
  | ok b u =>
    obtain ⟨m, pm, hm⟩ := h
    exact ⟨l ++ m, p.trans pm, step m hm⟩
  | error err u =>
    obtain ⟨m, pm, hm⟩ := h
    exact ⟨l ++ m, p.trans pm, step m hm⟩

theorem Op.obeys_bind {α β : Type} {x : Op α} {f : α → Op β} (hx : Op.Obeys P x) (hf : ∀ a, Op.Obeys P (f a)) :
    Op.Obeys P (x >>= f) := by
  intro s
  rw [Op.bind_run]
  have h := hx s
  cases hxs : x s with
  | error e t => rw [hxs] at h; exact h
  | ok a t =>
    rw [hxs] at h
    obtain ⟨l, pl, hl⟩ := h
    exact Lands.after pl hl (hf a t)

theorem Op.obeys_setRs (r : Bit) : Op.Obeys P (modify fun s => s.setRs r : Op Unit) := by
  intro s
  show Lands P s (.ok () (s.setRs r))
  refine ⟨[], ?_, by simp⟩
  constructor <;> simp

/-- The path of one call of the transport, answered `ok`. -/
theorem Path.call_ok {s : State} {c : Call} {b : Byte} (h : s.answerTo c = .ok b) :
    Path s (s.afterCall c (.ok b)) [callEvent c (.ok b)] none := by
  have hc : callCount [callEvent c (.ok b)] = 1 := by cases c <;> rfl
  constructor <;> try (simp; done)
  · rw [hc]; simp
  · intro j hj _ hlen
    obtain rfl : j = 0 := by omega
    unfold State.answerTo at h
    cases hb : s.bus with
    | nil => simp [hb] at hlen
    | cons a l => exact ⟨b, by simp_all⟩

/-- The path of one call of the transport, answered `err(e)`. -/
theorem Path.call_error {s : State} {c : Call} {e : TransportError} (h : s.answerTo c = .err e) :
    Path s (s.afterCall c (.err e)) [callEvent c (.err e)] (some e) := by
  have hc : callCount [callEvent c (.err e)] = 1 := by cases c <;> rfl
  constructor <;> try (simp; done)
  · rw [hc]; simp
  · intro j hj hf _
    have := hf rfl
    omega
  · intro e' he'
    obtain rfl : e = e' := by simpa using he'
    refine ⟨[], _, rfl, by cases c <;> rfl, fun hlen => ?_⟩
    rw [hc] at hlen ⊢
    unfold State.answerTo at h
    cases hb : s.bus with
    | nil => simp [hb] at hlen
    | cons a l => simp_all

theorem busCall_obeys (c : Call) (h : ∀ a b p r, P a b p (callEvent c r)) : Op.Obeys P (busCall c) := by
  intro s
  unfold busCall
  cases ha : s.answerTo c with
  | ok b => exact ⟨_, Path.call_ok ha, by simpa using h _ _ _ _⟩
  | err e => exact ⟨_, Path.call_error ha, by simpa using h _ _ _ _⟩

theorem delay_obeys (ms : Ms) (h : ∀ a b p, P a b p (.delay ms)) : Op.Obeys P (delay ms) := by
  intro s
  show Lands P s (.ok () (s.afterDelay ms))
  refine ⟨[.delay ms], ?_, by simpa using h _ _ _⟩
  constructor <;> simp

/-! ### The requests that never read -/

/-- The events of a piece of a request that never reads: a write to the device, with the backlight in bit 3 and 0 in bit 1,
a per-write pause, or an init gap (10_state.md R16, R19; 41_lcd_ops.md R75). -/
def StrobeEvent (a : DevAddr) (bl : Bit) (p : Params) (e : Event) : Prop :=
  (∃ v, e = .write a v ∧ v.extractLsb' 3 1 = bl ∧ v.extractLsb' 1 1 = 0) ∨ e = .delay p.tWrite ∨ e = .delay 5

theorem wire_lines (n : Nibble) (bl rs : Bit) :
    (wire n bl 0 rs).extractLsb' 3 1 = bl ∧ (wire n bl 0 rs).extractLsb' 1 1 = 0 ∧
    (wire n bl 0 rs ||| EN).extractLsb' 3 1 = bl ∧ (wire n bl 0 rs ||| EN).extractLsb' 1 1 = 0 := by
  revert n bl rs; decide

theorem perform_lands {evs : List Event} (hr : NoReads evs) (s : State)
    (h : ∀ e ∈ evs, P s.addr s.bl s.params e) : Lands P s (perform evs s) := by
  have key : ∀ (Q : Event → Prop), (∀ e ∈ evs, Q e) → Op.Obeys (fun _ _ _ => Q) (perform evs) := by
    intro Q hQ
    clear h
    induction evs with
    | nil => exact Op.obeys_pure _
    | cons x l ih =>
      have hl := ih (fun e he => hr e (List.mem_cons_of_mem _ he)) fun e he => hQ e (List.mem_cons_of_mem _ he)
      have hx := hQ x List.mem_cons_self
      cases x with
      | write a v =>
        exact Op.obeys_bind (Op.obeys_bind (busCall_obeys _ fun _ _ _ _ => hx) fun _ => Op.obeys_pure _) fun _ => hl
      | read a r => exact absurd (hr _ List.mem_cons_self) (by simp [readCount])
      | delay ms => exact Op.obeys_bind (delay_obeys ms fun _ _ _ => hx) fun _ => hl
  exact key _ h s

theorem nib_obeys (n : Nibble) : Op.Obeys StrobeEvent (nib n) := by
  intro s
  rw [nib_run]
  have hw := wire_lines n s.bl s.rs
  refine perform_lands (noReads_strobeEvents _ _ _) s ?_
  intro e he
  simp only [strobeEvents, List.mem_cons, List.not_mem_nil, or_false] at he
  rcases he with rfl | rfl | rfl | rfl | rfl | rfl
  · exact .inl ⟨_, rfl, hw.1, hw.2.1⟩
  · exact .inr (.inl rfl)
  · exact .inl ⟨_, rfl, hw.2.2.1, hw.2.2.2⟩
  · exact .inr (.inl rfl)
  · exact .inl ⟨_, rfl, hw.1, hw.2.1⟩
  · exact .inr (.inl rfl)

theorem byteTransfer_obeys (b : Byte) (rs : Bit) : Op.Obeys StrobeEvent (byteTransfer b rs) :=
  Op.obeys_bind (Op.obeys_setRs rs) fun _ => Op.obeys_bind (nib_obeys _) fun _ => nib_obeys _

theorem sendAll_obeys (l : List (Byte × Bit)) : Op.Obeys StrobeEvent (sendAll l) := by
  induction l with
  | nil => exact Op.obeys_pure _
  | cons x l ih => exact Op.obeys_bind (byteTransfer_obeys _ _) fun _ => ih

theorem cmd_obeys (b : Byte) : Op.Obeys StrobeEvent (cmd b) := byteTransfer_obeys b 0

theorem dat_obeys (b : Byte) : Op.Obeys StrobeEvent (dat b) := byteTransfer_obeys b 1

theorem emit_obeys (col : Byte) (row : Row) (text : List Byte) : Op.Obeys StrobeEvent (emit col row text) := by
  intro s
  rw [emit_run]
  exact sendAll_obeys _ s

theorem preambleNibble_obeys (n : Nibble) : Op.Obeys StrobeEvent (preambleNibble n) :=
  Op.obeys_bind (nib_obeys n) fun _ => delay_obeys _ fun _ _ _ => .inr (.inr rfl)

theorem preamble3_obeys (n : Nat) : Op.Obeys StrobeEvent (preamble3 n) := by
  induction n with
  | zero => exact Op.obeys_pure _
  | succ n ih => exact Op.obeys_bind (preambleNibble_obeys 3) fun _ => ih

/-! ### The probe -/

/-- The events of a probe: a pattern written to a candidate, or a read of one (42_address.md R77). -/
def ProbeEvent (_ : DevAddr) (_ : Bit) (_ : Params) (e : Event) : Prop :=
  ∃ a ∈ candidates, e = .write a 0xFF ∨ e = .write a 0x00 ∨ ∃ r, e = .read a r

theorem probeFrom_obeys (l : List DevAddr) (h : ∀ a ∈ l, a ∈ candidates) : Op.Obeys ProbeEvent (probeFrom l) := by
  induction l with
  | nil => exact Op.obeys_pure _
  | cons a l ih =>
    have ha := h a List.mem_cons_self
    have hw : ∀ v, (v = 0xFF ∨ v = 0x00) → Op.Obeys ProbeEvent (busWrite a v) := fun v hv =>
      Op.obeys_bind (busCall_obeys _ fun _ _ _ _ => ⟨a, ha, by rcases hv with rfl | rfl <;> simp [callEvent]⟩)
        fun _ => Op.obeys_pure _
    have hr : Op.Obeys ProbeEvent (busRead a) := busCall_obeys _ fun _ _ _ r => ⟨a, ha, .inr (.inr ⟨r, rfl⟩)⟩
    refine Op.obeys_bind (hw _ (.inl rfl)) fun _ => Op.obeys_bind hr fun r1 =>
      Op.obeys_bind (hw _ (.inr rfl)) fun _ => Op.obeys_bind hr fun r2 => ?_
    split
    · exact Op.obeys_pure _
    · exact ih fun b hb => h b (List.mem_cons_of_mem _ hb)

theorem probeBus_obeys : Op.Obeys ProbeEvent probeBus := probeFrom_obeys _ fun _ h => h

end Sys2Proof.Machine
end

