-- ==== Sys2Proof/Laws/PerInstr.lean ====
section
/-! SUPPORT. Statements made for each request in turn. Family `EncodingRow`: the word of a request, whatever its operands,
is legal for the row of the opcode table that has its operation, and for no other (30_encoding.md R49, R57). -/

namespace Sys2Proof.Laws.EncodingRow

/-- The row of a request's operation stands in the opcode table and accepts the request's word; and every row that accepts
the word is that row. -/
def Statement (i : Instr) : Prop :=
  (∃ r ∈ opcodeTable, r.mnemonic = i.mnemonic ∧ encodeWord i &&& r.mask = r.matchBits) ∧
  ∀ r ∈ opcodeTable, encodeWord i &&& r.mask = r.matchBits → r.mnemonic = i.mnemonic

/-- A request whose must-be-zero operand bits are zero is accepted by its own row alone. -/
theorem of_zerosHold (i : Instr) (hz : i.mnemonic.format.zerosHold (encodeWord i) = true) : Statement i := by
  have rows : ∀ m : Mnemonic, ∃ r ∈ opcodeTable, r.mnemonic = m := by intro m; cases m <;> decide
  have injective : ∀ m m' : Mnemonic, m.opcode = m'.opcode → m' = m := by
    intro m m' h
    have h' := mnemonicOf_opcode m
    rw [h, mnemonicOf_opcode] at h'
    exact Option.some.inj h'
  refine ⟨?_, fun r hr h => ?_⟩
  · obtain ⟨r, hr, hm⟩ := rows i.mnemonic
    exact ⟨r, hr, hm, (row_accepts_iff hr _).2 ⟨by simp [encodeWord, hm], by simp [encodeWord], by rw [hm]; exact hz⟩⟩
  · have h1 := ((row_accepts_iff hr _).1 h).1
    rw [encodeWord, opField_assembleWord] at h1
    exact injective _ _ h1

/-- The must-be-zero operand bits of every request's word are zero (30_encoding.md R47). -/
theorem zerosHold_encodeWord (i : Instr) : i.mnemonic.format.zerosHold (encodeWord i) = true := by
  cases i <;>
    simp [encodeWord, Instr.mnemonic, Mnemonic.format, Format.zerosHold, Instr.operandA, Instr.operandB, extract_addr_top,
      extract_flag_top, extract_row_top, -BitVec.extractLsb'_eq_zero]

theorem init (addr : DevAddr) : Statement (.init addr) := of_zerosHold _ (zerosHold_encodeWord _)
theorem setaddr (addr : DevAddr) : Statement (.setaddr addr) := of_zerosHold _ (zerosHold_encodeWord _)
theorem autodet : Statement .autodet := of_zerosHold _ (zerosHold_encodeWord _)
theorem probe : Statement .probe := of_zerosHold _ (zerosHold_encodeWord _)
theorem clear : Statement .clear := of_zerosHold _ (zerosHold_encodeWord _)
theorem bkl (f : Bit) : Statement (.bkl f) := of_zerosHold _ (zerosHold_encodeWord _)
theorem vis (f : Bit) : Statement (.vis f) := of_zerosHold _ (zerosHold_encodeWord _)
theorem shl : Statement .shl := of_zerosHold _ (zerosHold_encodeWord _)
theorem shr : Statement .shr := of_zerosHold _ (zerosHold_encodeWord _)
theorem wcmd (byte : Byte) : Statement (.wcmd byte) := of_zerosHold _ (zerosHold_encodeWord _)
theorem wdat (byte : Byte) : Statement (.wdat byte) := of_zerosHold _ (zerosHold_encodeWord _)
theorem setcur (col : Byte) (row : Row) : Statement (.setcur col row) := of_zerosHold _ (zerosHold_encodeWord _)
theorem putstr (col : Byte) (row : Row) (text : List Byte) : Statement (.putstr col row text) :=
  of_zerosHold _ (zerosHold_encodeWord _)
theorem putnum (col : Byte) (row : Row) (n : BitVec 32) : Statement (.putnum col row n) :=
  of_zerosHold _ (zerosHold_encodeWord _)

end Sys2Proof.Laws.EncodingRow
end

