-- ==== Sys2Proof/Laws/Probe.lean ====
section
/-! SUPPORT. What the probe does on the answers it gets (42_address.md R77, R78): past every candidate that does not
accept, at the first that does, at the end of the candidates, and at a call that fails. -/

namespace Sys2Proof.Machine

@[simp] theorem State.busByte_advance (s : State) (evs : List Event) (k : Nat) :
    (s.advance evs).busByte k = s.busByte (callCount evs + k) := by
  simp [State.busByte, List.getElem?_drop]

theorem State.bus_of_grants {s : State} {n k : Nat} (h : s.grants n) (hk : k < n) :
    s.bus[k]? = some (.ok (s.busByte k)) := by
  obtain ⟨d, hd⟩ := h k hk
  simp [State.busByte, hd]

theorem busWrite_ok {s : State} (a : DevAddr) (v : Byte) (h : s.grants 1) :
    busWrite a v s = .ok () (s.advance [.write a v]) := by
  simp [busWrite_run, State.answerTo_of_bus _ (State.bus_of_grants h Nat.one_pos)]

theorem busRead_ok {s : State} (a : DevAddr) (h : s.grants 1) :
    busRead a s = .ok (s.busByte 0) (s.advance [.read a (.ok (s.busByte 0))]) := by
  simp [busRead_run, State.answerTo_of_bus _ (State.bus_of_grants h Nat.one_pos)]

theorem busWrite_error {s : State} (a : DevAddr) (v : Byte) {e : TransportError} (h : s.failsAt 0 e) :
    busWrite a v s = .error e (s.advance [.write a v]) := by
  simp [busWrite_run, State.answerTo_of_bus _ h.2]

theorem busRead_error {s : State} (a : DevAddr) {e : TransportError} (h : s.failsAt 0 e) :
    busRead a s = .error e (s.advance [.read a (.err e)]) := by
  simp [busRead_run, State.answerTo_of_bus _ h.2]

/-- The four calls of one candidate, all answered `ok`, and the test. -/
theorem probeFrom_cons {s : State} (a : DevAddr) (rest : List DevAddr) (h : s.grants 4) :
    probeFrom (a :: rest) s =
      (if signatureMatches (s.busByte 1) (s.busByte 3) then pure (some a) else probeFrom rest : Op (Option DevAddr))
        (s.advance [.write a 0xFF, .read a (.ok (s.busByte 1)), .write a 0x00, .read a (.ok (s.busByte 3))]) := by
  have g (evs : List Event) (hc : callCount evs ≤ 3) : (s.advance evs).grants 1 :=
    State.grants_advance (State.grants_mono h (by omega))
  rw [probeFrom, Op.bind_ok (busWrite_ok a _ (State.grants_mono h (by omega))),
    Op.bind_ok (busRead_ok a (g _ (by simp))), State.advance_advance,
    Op.bind_ok (busWrite_ok a _ (g _ (by simp))), State.advance_advance,
    Op.bind_ok (busRead_ok a (g _ (by simp))), State.advance_advance]
  simp only [State.busByte_advance, patternOnes, patternZero]
  rfl

theorem signatureMatches_iff (r1 r2 : Byte) :
    signatureMatches r1 r2 = true ↔ r1.toNat % 16 = 7 ∧ r2 = 0x00 := by
  simp only [signatureMatches, Bool.and_eq_true, beq_iff_eq]
  exact and_congr_right fun _ => ⟨fun h => BitVec.eq_of_toNat_eq h, fun h => by simp [h]⟩

theorem candidates_drop (i : Nat) (h : i < 16) : candidates.drop i = candidateAddr i :: candidates.drop (i + 1) := by
  revert i; decide

theorem State.probeEvents_succ (s : State) (n : Nat) :
    s.probeEvents (n + 1) = s.probeEvents n ++ s.candidateEvents n := by
  simp [State.probeEvents, List.range_succ]

@[simp] theorem State.callCount_candidateEvents (s : State) (i : Nat) : callCount (s.candidateEvents i) = 4 := rfl

@[simp] theorem State.callCount_probeEvents (s : State) (n : Nat) : callCount (s.probeEvents n) = 4 * n := by
  induction n with
  | zero => rfl
  | succ n ih => simp [State.probeEvents_succ, ih]; omega

/-- Candidate number `i`, after the candidates before it. -/
theorem probeFrom_drop {s : State} {i : Nat} (hi : i < 16) (h : s.grants (4 * (i + 1))) :
    probeFrom (candidates.drop i) (s.advance (s.probeEvents i)) =
      (if signatureMatches (s.busByte (4 * i + 1)) (s.busByte (4 * i + 3)) then pure (some (candidateAddr i))
        else probeFrom (candidates.drop (i + 1)) : Op (Option DevAddr)) (s.advance (s.probeEvents (i + 1))) := by
  have g : (s.advance (s.probeEvents i)).grants 4 :=
    State.grants_advance (State.grants_mono h (by simp; omega))
  rw [candidates_drop i hi, probeFrom_cons _ _ g, State.probeEvents_succ, ← State.advance_advance]
  simp only [State.busByte_advance, State.callCount_probeEvents]
  rfl

/-- Past the candidates that do not accept. -/
theorem probeBus_skip {s : State} {i : Nat} (hi : i ≤ 16) (h : s.grants (4 * i))
    (hn : ∀ j, j < i → ¬ s.candidateAccepts j) :
    probeBus s = probeFrom (candidates.drop i) (s.advance (s.probeEvents i)) := by
  induction i with
  | zero => simp [probeBus, State.probeEvents]
  | succ i ih =>
    rw [ih (by omega) (State.grants_mono h (by omega)) fun j hj => hn j (by omega), probeFrom_drop (by omega) h]
    have := hn i (by omega)
    rw [State.candidateAccepts, ← signatureMatches_iff] at this
    simp [this]

theorem probeBus_found {s : State} {i : Nat} (hi : i < 16) (h : s.grants (4 * (i + 1)))
    (hn : ∀ j, j < i → ¬ s.candidateAccepts j) (ha : s.candidateAccepts i) :
    probeBus s = .ok (some (candidateAddr i)) (s.advance (s.probeEvents (i + 1))) := by
  rw [probeBus_skip (by omega) (State.grants_mono h (by omega)) hn, probeFrom_drop hi h]
  rw [State.candidateAccepts, ← signatureMatches_iff] at ha
  simp [ha]

theorem probeBus_notFound {s : State} (h : s.grants 64) (hn : ∀ j, j < 16 → ¬ s.candidateAccepts j) :
    probeBus s = .ok none (s.advance (s.probeEvents 16)) := by
  rw [probeBus_skip (i := 16) (by omega) h hn]
  rfl

/-- A call of a candidate that fails: the first `k` events of the candidate, and the call. -/
theorem probeFrom_cons_error {s : State} (a : DevAddr) (rest : List DevAddr) {k : Nat} {e : TransportError}
    (hk : k < 4) (h : s.failsAt k e) :
    probeFrom (a :: rest) s = .error e (s.advance
      (([.write a 0xFF, .read a (.ok (s.busByte 1)), .write a 0x00, .read a (.ok (s.busByte 3))] : List Event).take k ++
        [if k = 0 then .write a 0xFF else if k = 2 then .write a 0x00 else .read a (.err e)])) := by
  have g (evs : List Event) (hc : callCount evs < k) : (s.advance evs).grants 1 :=
    State.grants_advance (State.grants_mono h.1 (by omega))
  have f (evs : List Event) (hc : callCount evs = k) : (s.advance evs).failsAt 0 e :=
    State.failsAt_advance (by simpa [hc] using h)
  rw [probeFrom]
  obtain rfl | rfl | rfl | rfl : k = 0 ∨ k = 1 ∨ k = 2 ∨ k = 3 := by omega
  · rw [Op.bind_error (busWrite_error a _ h)]
    rfl
  · rw [Op.bind_ok (busWrite_ok a _ (State.grants_mono h.1 (by omega))),
      Op.bind_error (busRead_error a (f _ (by simp))), State.advance_advance]
    rfl
  · rw [Op.bind_ok (busWrite_ok a _ (State.grants_mono h.1 (by omega))),
      Op.bind_ok (busRead_ok a (g _ (by simp))), State.advance_advance,
      Op.bind_error (busWrite_error a _ (f _ (by simp))), State.advance_advance]
    simp [patternOnes, patternZero]
  · rw [Op.bind_ok (busWrite_ok a _ (State.grants_mono h.1 (by omega))),
      Op.bind_ok (busRead_ok a (g _ (by simp))), State.advance_advance,
      Op.bind_ok (busWrite_ok a _ (g _ (by simp))), State.advance_advance,
      Op.bind_error (busRead_error a (f _ (by simp))), State.advance_advance]
    simp [patternOnes, patternZero]

/-- An address the probe finds is one of its candidates. -/
theorem probeFrom_mem {l : List DevAddr} {s t : State} {a : DevAddr} (h : probeFrom l s = .ok (some a) t) : a ∈ l := by
  induction l generalizing s with
  | nil => simp [probeFrom] at h
  | cons b rest ih =>
    simp only [probeFrom, Op.bind_run] at h
    repeat' (split at h <;> try (simp at h; done))
    · obtain ⟨rfl, _⟩ : b = a ∧ _ := by simpa using h
      simp
    · exact List.mem_cons_of_mem _ (ih h)

end Sys2Proof.Machine
end

