-- ==== Sys2Proof/Laws/Requests.lean ====
section
/-! SUPPORT. Everything a request can do, said once: if `exec i s` answers a next state, the request was accepted from IDLE,
wrote what it writes before its first event, went along a path of events of its kind, and ended with one response. Every rule
about all requests follows from `exec_inv`. -/

namespace Sys2Proof.Machine

/-- The state a request's first event starts from: `SEQ` BUSY, and what the request writes before any event
(41_lcd_ops.md R68, R71; 42_address.md R76). -/
def beforeEvents (i : Instr) (s : State) : State :=
  match i with
  | .init a => (s.accept.setAddr a).setRs 0
  | .setaddr a => s.accept.setAddr a
  | .bkl f => s.accept.setBl f
  | .autodet | .probe | .clear | .vis _ | .shl | .shr | .wcmd _ | .wdat _ | .setcur _ _ | .putstr _ _ _
  | .putnum _ _ _ => s.accept

/-- The kind of event a request emits. -/
def EventOf (i : Instr) (a : DevAddr) (bl : Bit) (p : Params) (e : Event) : Prop :=
  if isProber i then ProbeEvent a bl p e else StrobeEvent a bl p e

/-- How a request ended that went on to its response `(code, value)`: AUTODET has written the address it found, and no other
request has written anything more. -/
def epilogue (i : Instr) (code : Code) (value : Byte) (u t : State) : Prop :=
  (t = u.respond ⟨code, value, none⟩ ∧ (i = .autodet → code = .notFound) ∧ (isProber i = false → code = .ok ∧ value = 0)) ∨
  (∃ a, i = .autodet ∧ code = .ok ∧ value = a.setWidth 8 ∧ t = (u.setAddr a).respond ⟨code, value, none⟩)

/-- What a request that answered a next state has done. -/
structure Ended (i : Instr) (s t : State) : Prop where
  idle : s.seq = .idle
  cases : ∃ evs u, (∀ e ∈ evs, EventOf i (beforeEvents i s).addr (beforeEvents i s).bl s.params e) ∧
    ((∃ code value, Path (beforeEvents i s) u evs none ∧ code ≠ .transportError ∧ epilogue i code value u t) ∨
     (∃ e, Path (beforeEvents i s) u evs (some e) ∧ t = u.raiseTransportError e))

@[simp] theorem beforeEvents_params (i : Instr) (s : State) : (beforeEvents i s).params = s.params := by cases i <;> rfl
@[simp] theorem beforeEvents_trace (i : Instr) (s : State) : (beforeEvents i s).trace = s.trace := by cases i <;> rfl
@[simp] theorem beforeEvents_bus (i : Instr) (s : State) : (beforeEvents i s).bus = s.bus := by cases i <;> rfl
@[simp] theorem beforeEvents_replies (i : Instr) (s : State) : (beforeEvents i s).replies = s.replies := by cases i <;> rfl
@[simp] theorem beforeEvents_port (i : Instr) (s : State) : (beforeEvents i s).port = s.port := by cases i <;> rfl
@[simp] theorem beforeEvents_seqBroken (i : Instr) (s : State) : (beforeEvents i s).seqBroken = s.seqBroken := by cases i <;> rfl

theorem request_next {x : Op (Code × Byte)} {s t : State} (h : request x s = .next t) :
    s.seq = .idle ∧ t = settle (x s.accept) := by
  unfold request at h
  cases hs : s.seq with
  | busy => simp [hs] at h
  | idle =>
    rw [hs] at h
    exact ⟨rfl, (Host.Outcome.next.inj h).symm⟩

/-- A request of byte transfers and gaps alone, from where its first event starts. -/
theorem Ended.of_strobes {i : Instr} {s : State} {x : Op Unit} (hs : s.seq = .idle) (hi : isProber i = false)
    (hx : Op.Obeys StrobeEvent x) :
    Ended i s (settle ((do x; return (.ok, 0) : Op (Code × Byte)) (beforeEvents i s))) := by
  refine ⟨hs, ?_⟩
  have hp := hx (beforeEvents i s)
  have he : EventOf i = StrobeEvent := by
    funext a bl p e
    simp [EventOf, hi]
  rw [he, Op.bind_run]
  cases hr : x (beforeEvents i s) with
  | ok a u =>
    rw [hr] at hp
    obtain ⟨evs, p, hP⟩ := hp
    refine ⟨evs, u, by simpa using hP, .inl ⟨.ok, 0, p, by decide, .inl ⟨rfl, ?_, fun _ => ⟨rfl, rfl⟩⟩⟩⟩
    rintro rfl
    simp [isProber] at hi
  | error e u =>
    rw [hr] at hp
    obtain ⟨evs, p, hP⟩ := hp
    exact ⟨evs, u, by simpa using hP, .inr ⟨e, p, rfl⟩⟩

theorem init_obeys (n : Nat) :
    Op.Obeys StrobeEvent (do
      preamble3 n; preambleNibble 0x2; cmd 0x28; cmd 0x0C; cmd 0x06; cmd 0x01 : Op Unit) :=
  Op.obeys_bind (preamble3_obeys n) fun _ => Op.obeys_bind (preambleNibble_obeys _) fun _ =>
    Op.obeys_bind (cmd_obeys _) fun _ => Op.obeys_bind (cmd_obeys _) fun _ =>
      Op.obeys_bind (cmd_obeys _) fun _ => cmd_obeys _

theorem Op.bind_assoc_run {α β γ : Type} (x : Op α) (f : α → Op β) (g : β → Op γ) (s : State) :
    ((x >>= f) >>= g) s = (x >>= fun a => f a >>= g) s := by
  simp only [Op.bind_run]
  cases x s <;> rfl

/-- INIT, from where its first event starts. -/
theorem execInit_settle (a : DevAddr) (s : State) :
    execInit a s = request (do
      modify fun t => (t.setAddr a).setRs 0
      (do preamble3 (preambleCount s.params.nPre3); preambleNibble 0x2; cmd 0x28; cmd 0x0C; cmd 0x06; cmd 0x01 : Op Unit)
      return (.ok, 0)) s := by
  unfold execInit request
  cases s.seq with
  | busy => rfl
  | idle =>
    simp only [Op.bind_run, Op.modify_run]
    congr 2
    repeat' (split <;> try rfl)

/-- If `exec i s` answers a next state, this is what the request has done. -/
theorem exec_inv {i : Instr} {s t : State} (h : exec i s = .next t) : Ended i s t := by
  cases i with
  | init a =>
    rw [exec, execInit_settle] at h
    obtain ⟨hs, rfl⟩ := request_next h
    exact Ended.of_strobes (i := .init a) hs rfl (init_obeys _)
  | setaddr a =>
    obtain ⟨hs, rfl⟩ := request_next h
    exact Ended.of_strobes (i := .setaddr a) hs rfl (Op.obeys_pure ())
  | bkl f =>
    obtain ⟨hs, rfl⟩ := request_next h
    exact Ended.of_strobes (i := .bkl f) hs rfl (cmd_obeys _)
  | clear => obtain ⟨hs, rfl⟩ := request_next h; exact Ended.of_strobes (i := .clear) hs rfl (cmd_obeys _)
  | vis f => obtain ⟨hs, rfl⟩ := request_next h; exact Ended.of_strobes (i := .vis f) hs rfl (cmd_obeys _)
  | shl => obtain ⟨hs, rfl⟩ := request_next h; exact Ended.of_strobes (i := .shl) hs rfl (cmd_obeys _)
  | shr => obtain ⟨hs, rfl⟩ := request_next h; exact Ended.of_strobes (i := .shr) hs rfl (cmd_obeys _)
  | wcmd b => obtain ⟨hs, rfl⟩ := request_next h; exact Ended.of_strobes (i := .wcmd b) hs rfl (cmd_obeys _)
  | wdat b => obtain ⟨hs, rfl⟩ := request_next h; exact Ended.of_strobes (i := .wdat b) hs rfl (dat_obeys _)
  | setcur c r => obtain ⟨hs, rfl⟩ := request_next h; exact Ended.of_strobes (i := .setcur c r) hs rfl (cmd_obeys _)
  | putstr c r l =>
    obtain ⟨hs, rfl⟩ := request_next h
    exact Ended.of_strobes (i := .putstr c r l) hs rfl (emit_obeys _ _ _)
  | putnum c r n =>
    obtain ⟨hs, rfl⟩ := request_next h
    exact Ended.of_strobes (i := .putnum c r n) hs rfl (emit_obeys _ _ _)
  | probe =>
    obtain ⟨hs, rfl⟩ := request_next h
    refine ⟨hs, ?_⟩
    have hp := probeBus_obeys s.accept
    rw [Op.bind_run]
    cases hr : probeBus s.accept with
    | error e u =>
      rw [hr] at hp
      obtain ⟨evs, p, hP⟩ := hp
      exact ⟨evs, u, hP, .inr ⟨e, p, rfl⟩⟩
    | ok o u =>
      rw [hr] at hp
      obtain ⟨evs, p, hP⟩ := hp
      cases o with
      | none =>
        exact ⟨evs, u, hP, .inl ⟨.notFound, 0, p, by decide, .inl ⟨rfl, by simp, by simp [isProber]⟩⟩⟩
      | some a =>
        exact ⟨evs, u, hP, .inl ⟨.ok, _, p, by decide, .inl ⟨rfl, by simp, by simp [isProber]⟩⟩⟩
  | autodet =>
    obtain ⟨hs, rfl⟩ := request_next h
    refine ⟨hs, ?_⟩
    have hp := probeBus_obeys s.accept
    rw [Op.bind_run]
    cases hr : probeBus s.accept with
    | error e u =>
      rw [hr] at hp
      obtain ⟨evs, p, hP⟩ := hp
      exact ⟨evs, u, hP, .inr ⟨e, p, rfl⟩⟩
    | ok o u =>
      rw [hr] at hp
      obtain ⟨evs, p, hP⟩ := hp
      cases o with
      | none =>
        exact ⟨evs, u, hP, .inl ⟨.notFound, 0, p, by decide, .inl ⟨rfl, by simp, by simp [isProber]⟩⟩⟩
      | some a => exact ⟨evs, u, hP, .inl ⟨.ok, _, p, by decide, .inr ⟨a, rfl, rfl, rfl, rfl⟩⟩⟩

/-- Every request run from IDLE answers a next state, whatever the transport answers. -/
theorem exec_idle (i : Instr) {s : State} (hs : s.seq = .idle) : ∃ t, exec i s = .next t := by
  have h : ∀ x : Op (Code × Byte), ∃ t, request x s = .next t := fun x => ⟨settle (x s.accept), by simp [request, hs]⟩
  cases i <;> exact h _

/-- A request made of byte transfers is the sending of its transfers, after `BL` has been written where it is BKL
(30_encoding.md R58; 41_lcd_ops.md R71; 43_layout.md R88). -/
theorem exec_transfers {i : Instr} {s : State} {l : List (Byte × Bit)}
    (hl : transfersOf s.params.wrapOtherRows i = some l) :
    exec i s = request (do sendAll l; return (.ok, 0)) { s with bl := backlightDuring i s.bl } := by
  cases i <;> simp only [transfersOf, reduceCtorEq, Option.some.injEq] at hl <;> subst hl
  case putstr col row text =>
    cases hs : s.seq <;> simp only [exec, execPutstr, request, hs, Op.bind_run, emit_run]
    rfl
  case putnum col row n =>
    cases hs : s.seq <;> simp only [exec, execPutnum, request, hs, Op.bind_run, emit_run]
    rfl
  case bkl f =>
    cases hs : s.seq <;> simp only [exec, execBkl, cmd_eq, request, hs]
    rfl
  all_goals
    simp only [exec, execClear, execVis, execShl, execShr, execWcmd, execWdat, execSetcur, cmd_eq, dat_eq, caddr_eq]
    rfl

/-- INIT is the performing of its events, from the state with `ADDR` and `RS` written (41_lcd_ops.md R68). -/
theorem exec_init (a : DevAddr) {s : State} (hs : s.seq = .idle) :
    exec (.init a) s = .next (settle ((do
      perform (initEvents a s.params.tWrite s.bl (preambleCount s.params.nPre3))
      return (.ok, 0) : Op (Code × Byte)) ((s.accept.setAddr a).setRs 0))) := by
  have h := init_run (s := (s.accept.setAddr a).setRs 0) (preambleCount s.params.nPre3) rfl rfl
  rw [exec, execInit_settle, request, hs]
  simp only [Op.bind_run (modify _), Op.modify_run]
  rw [Op.bind_run, h, Op.bind_run]
  rfl

end Sys2Proof.Machine
end

