-- ==== Sys2Proof/Tests/Slice0.lean ====
section
/-! SUPPORT. The model's own tests. Expected values come from spec/95_test_vectors.md (section numbers as there) and from the
worked examples of the rules; then, for every statement with hypotheses, witnesses that meet them together. -/

namespace Sys2Proof.Machine.Tests

open Sys2Proof Sys2Proof.Machine

/-! ### A small state -/

/-- Parameters with `ADDR_DEFAULT = 0x55` (95_test_vectors.md section 3) and `T_WRITE = 1`. -/
def testParams : Params := ⟨0x55, 1, 1, .two, .row0Literal⟩

/-- An idle block at address 0x27 with the backlight on, the transport going to answer `bus`. -/
def testState (bus : List Answer) : State := { State.powerOn testParams with addr := 0x27, bus := bus }

/-- `n` answers `ok`. -/
def oks (n : Nat) : List Answer := List.replicate n (.ok 0xFF)

/-- The bytes written, in order. -/
def bytesOf : List Event → List Byte
  | [] => []
  | .write _ v :: rest => v :: bytesOf rest
  | .read _ _ :: rest => bytesOf rest
  | .delay _ :: rest => bytesOf rest

/-- A fact about the next state; false for a fault or a refusal. -/
def nextIs (o : Outcome) (p : State → Bool) : Bool :=
  match o with
  | .next t => p t
  | .fault _ => false
  | .refused _ => false

/-! ### Well-formedness -/

theorem test_wf_refuses_long_text : (Instr.putstr 0 0 (List.replicate 256 0x41)).wf = false := by decide +kernel
theorem test_wf_accepts_longest_text : (Instr.putstr 0 0 (List.replicate 255 0x41)).wf = true := by decide +kernel

/-! ### Decoding: every row of the opcode table, its word written bit by bit from the encoding column -/

theorem test_decode_init : decode (.mk 0b00010000000000000010011100000000#32 .empty) = some (.init 0x27) := by decide
theorem test_decode_setaddr : decode (.mk 0b00100000000000000011111100000000#32 .empty) = some (.setaddr 0x3F) := by decide
theorem test_decode_autodet : decode (.mk 0b00110000000000000000000000000000#32 .empty) = some .autodet := by decide
theorem test_decode_probe : decode (.mk 0b01000000000000000000000000000000#32 .empty) = some .probe := by decide
theorem test_decode_clear : decode (.mk 0b01010000000000000000000000000000#32 .empty) = some .clear := by decide
theorem test_decode_bkl : decode (.mk 0b01100000000000000000000000000001#32 .empty) = some (.bkl 1) := by decide
theorem test_decode_vis : decode (.mk 0b01110000000000000000000000000001#32 .empty) = some (.vis 1) := by decide
theorem test_decode_shl : decode (.mk 0b10000000000000000000000000000000#32 .empty) = some .shl := by decide
theorem test_decode_shr : decode (.mk 0b10010000000000000000000000000000#32 .empty) = some .shr := by decide
theorem test_decode_wcmd : decode (.mk 0b10100000000000000000000011111111#32 .empty) = some (.wcmd 0xFF) := by decide
theorem test_decode_wdat : decode (.mk 0b10110000000000000000000001000001#32 .empty) = some (.wdat 0x41) := by decide
theorem test_decode_setcur : decode (.mk 0b11000000000000001111111100000011#32 .empty) = some (.setcur 255 3) := by decide
theorem test_decode_putstr :
    decode (.mk 0b11010000000000000000111000000000#32 (.text [0x58, 0x59])) = some (.putstr 14 0 [0x58, 0x59]) := by decide
theorem test_decode_putnum :
    decode (.mk 0b11100000000000000000000000000001#32 (.number 42)) = some (.putnum 0 1 42) := by decide

/-- 95_test_vectors.md 2.5: the ILLEGAL rows. -/
theorem test_decode_illegal :
    [0x10008000, 0x10002701, 0x30000001, 0x60000002, 0x60000100, 0xB0000141, 0xC0000504, 0x00000000, 0xF0000000,
      0x50010000, 0x58000000].all (fun w => decodeTableWord 32 w == none) = true := by decide
theorem test_decode_long_text_illegal : decode (.mk 0xD0000000 (.text (List.replicate 256 0x41))) = none := by decide +kernel
theorem test_decode_longest_text :
    decode (.mk 0xD0000000 (.text (List.replicate 255 0x41))) = some (.putstr 0 0 (List.replicate 255 0x41)) := by decide +kernel
theorem test_decodeTableWord : decodeTableWord 32 0xC0000502 = some (.setcur 5 2) ∧
    decodeTableWord 32 0xD0000E00 = some (.putstr 14 0 []) ∧ decodeTableWord 32 0x00000000 = none := by decide
theorem test_encode_examples : encodeWord (.init 0x27) = 0x10002700 ∧ encodeWord (.bkl 1) = 0x60000001 ∧
    encodeWord (.wdat 0x41) = 0xB0000041 ∧ encodeWord (.setcur 5 2) = 0xC0000502 := by decide

/-! ### 2.1 Byte transfers -/

theorem test_wcmd : nextIs (exec (.wcmd 0x28) (testState (oks 6))) (fun t =>
    bytesOf t.trace == [0x28, 0x2C, 0x28, 0x88, 0x8C, 0x88] && t.trace.length == 12 && t.rs == 0) = true := by decide
theorem test_wcmd_cut_short : nextIs (exec (.wcmd 0x28) (testState (oks 3 ++ [.err 9]))) (fun t =>
    t.trace == [.write 0x27 0x28, .delay 1, .write 0x27 0x2C, .delay 1, .write 0x27 0x28, .delay 1, .write 0x27 0x88] &&
    t.replies == [⟨.transportError, 0, some 9⟩] && t.rs == 0 && t.seqBroken) = true := by decide
theorem test_wdat_dark : nextIs (exec (.wdat 0x41) ((testState (oks 6)).setBl 0)) (fun t =>
    bytesOf t.trace == [0x41, 0x45, 0x41, 0x11, 0x15, 0x11] && t.rs == 1) = true := by decide

/-! ### 2.2 LCD operations -/

theorem test_clear : nextIs (exec .clear (testState (oks 6))) (fun t =>
    bytesOf t.trace == [0x08, 0x0C, 0x08, 0x18, 0x1C, 0x18]) = true := by decide
theorem test_bkl_off : nextIs (exec (.bkl 0) (testState (oks 6))) (fun t =>
    bytesOf t.trace == [0x00, 0x04, 0x00, 0x00, 0x04, 0x00] && t.bl == 0) = true := by decide
theorem test_bkl_error_keeps_bl : nextIs (exec (.bkl 0) (testState [.err 3])) (fun t =>
    t.trace == [.write 0x27 0x00] && t.bl == 0 && t.replies == [⟨.transportError, 0, some 3⟩]) = true := by decide
theorem test_vis_on : nextIs (exec (.vis 1) (testState (oks 6))) (fun t =>
    bytesOf t.trace == [0x08, 0x0C, 0x08, 0xC8, 0xCC, 0xC8]) = true := by decide
theorem test_vis_off : nextIs (exec (.vis 0) (testState (oks 6))) (fun t =>
    bytesOf t.trace == [0x08, 0x0C, 0x08, 0x88, 0x8C, 0x88]) = true := by decide
theorem test_shl : nextIs (exec .shl (testState (oks 6))) (fun t =>
    bytesOf t.trace == [0x18, 0x1C, 0x18, 0x88, 0x8C, 0x88]) = true := by decide
theorem test_shr : nextIs (exec .shr (testState (oks 6))) (fun t =>
    bytesOf t.trace == [0x18, 0x1C, 0x18, 0xC8, 0xCC, 0xC8]) = true := by decide
theorem test_init : nextIs (exec (.init 0x3F) (testState (oks 33))) (fun t =>
    bytesTo 0x3F t.trace ==
      [0x38, 0x3C, 0x38, 0x38, 0x3C, 0x38, 0x28, 0x2C, 0x28, 0x28, 0x2C, 0x28, 0x88, 0x8C, 0x88,
       0x08, 0x0C, 0x08, 0xC8, 0xCC, 0xC8] ++ [0x08, 0x0C, 0x08, 0x68, 0x6C, 0x68, 0x08, 0x0C, 0x08, 0x18, 0x1C, 0x18] &&
    t.trace.length == 69 && t.addr == 0x3F && t.replies == [⟨.ok, 0, none⟩]) = true := by decide +kernel
theorem test_init_three : nextIs (exec (.init 0x27)
      { testState (oks 36) with params := { testParams with nPre3 := .three } }) (fun t =>
    (bytesOf t.trace).length == 36 && t.trace.length == 76) = true := by decide +kernel

/-! ### 2.3 The address unit -/

theorem test_setaddr : nextIs (exec (.setaddr 0x00) (testState [])) (fun t =>
    t.addr == 0x00 && t.trace == [] && t.replies == [⟨.ok, 0, none⟩]) = true := by decide
theorem test_probe_high_nibble_ignored : nextIs (exec .probe (testState [.ok 0, .ok 0x17, .ok 0, .ok 0x00])) (fun t =>
    t.replies == [⟨.ok, 0x20, none⟩] && t.trace.length == 4 && t.addr == 0x27) = true := by decide
theorem test_probe_second_byte_whole :
    nextIs (exec .probe (testState ([.ok 0, .ok 0x07, .ok 0, .ok 0x10] ++ oks 60))) (fun t =>
      t.replies == [⟨.notFound, 0, none⟩] && t.trace.length == 64 && !t.seqBroken) = true := by decide +kernel
theorem test_probe_third_call_fails : nextIs (exec .probe (testState [.ok 0, .ok 0xFF, .err 5])) (fun t =>
    t.trace == [.write 0x20 0xFF, .read 0x20 (.ok 0xFF), .write 0x20 0x00] &&
    t.replies == [⟨.transportError, 0, some 5⟩] && t.seqBroken) = true := by decide
theorem test_autodet_last : nextIs (exec .autodet (testState (oks 60 ++ [.ok 0, .ok 0x07, .ok 0, .ok 0x00]))) (fun t =>
    t.addr == 0x3F && t.replies == [⟨.ok, 0x3F, none⟩] && t.trace.length == 64) = true := by decide +kernel
theorem test_autodet_not_found : nextIs (exec .autodet (testState (oks 64))) (fun t =>
    t.addr == 0x27 && t.replies == [⟨.notFound, 0, none⟩]) = true := by decide +kernel

/-! ### 2.4 The layout -/

theorem test_caddr : caddr 5 2 = 0x99 ∧ caddr 0x6C 1 = 0x2C ∧ caddr 0x7F 0 = 0xFF ∧ caddr 0xFF 3 = 0xD3 := by decide
theorem test_setcur : nextIs (exec (.setcur 5 2) (testState (oks 6))) (fun t =>
    bytesOf t.trace == [0x98, 0x9C, 0x98, 0x98, 0x9C, 0x98]) = true := by decide
theorem test_putstr_wraps : nextIs (exec (.putstr 14 0 [0x58, 0x59, 0x5A]) (testState (oks 30))) (fun t =>
    bytesOf t.trace ==
      [0x88, 0x8C, 0x88, 0xE8, 0xEC, 0xE8, 0x59, 0x5D, 0x59, 0x89, 0x8D, 0x89, 0x59, 0x5D, 0x59, 0x99, 0x9D, 0x99] ++
      [0xC8, 0xCC, 0xC8, 0x08, 0x0C, 0x08, 0x59, 0x5D, 0x59, 0xA9, 0xAD, 0xA9] && t.rs == 1) = true := by decide +kernel
theorem test_putstr_row3 : nextIs (exec (.putstr 2 3 [0x41, 0x42]) (testState (oks 24))) (fun t =>
    bytesOf t.trace ==
      [0xD8, 0xDC, 0xD8, 0x68, 0x6C, 0x68, 0x49, 0x4D, 0x49, 0x19, 0x1D, 0x19, 0x88, 0x8C, 0x88, 0x38, 0x3C, 0x38,
       0x49, 0x4D, 0x49, 0x29, 0x2D, 0x29]) = true := by decide +kernel
theorem test_putnum : nextIs (exec (.putnum 0 1 (BitVec.ofInt 32 (-12))) (testState (oks 30))) (fun t =>
    bytesOf t.trace ==
      [0xC8, 0xCC, 0xC8, 0x08, 0x0C, 0x08, 0x29, 0x2D, 0x29, 0xD9, 0xDD, 0xD9, 0x88, 0x8C, 0x88, 0x18, 0x1C, 0x18] ++
      [0x39, 0x3D, 0x39, 0x19, 0x1D, 0x19, 0x39, 0x3D, 0x39, 0x29, 0x2D, 0x29]) = true := by decide +kernel
theorem test_dec : dec 0 = [0x30] ∧ dec (BitVec.ofInt 32 (-1)) = [0x2D, 0x31] ∧
    dec 0x7FFFFFFF = [0x32, 0x31, 0x34, 0x37, 0x34, 0x38, 0x33, 0x36, 0x34, 0x37] ∧
    dec 0x80000000 = [0x2D, 0x32, 0x31, 0x34, 0x37, 0x34, 0x38, 0x33, 0x36, 0x34, 0x38] := by decide +kernel
theorem test_text_transfers_modes :
    textTransfers .sameRow 2 3 [0x41, 0x42] = [(0xD6, 0), (0x41, 1), (0x42, 1)] ∧
    textTransfers .row0Literal 2 3 [0x41, 0x42] = [(0xD6, 0), (0x41, 1), (0x83, 0), (0x42, 1)] ∧
    textTransfers .row0Literal 0xFF 0 [0x41, 0x42] = [(0x7F, 0), (0x41, 1), (0xC0, 0), (0x42, 1)] ∧
    textTransfers .row0Literal 3 1 [] = [(0xC3, 0)] := by decide

/-! ### 2.6 The step -/

theorem test_step_illegal : nextIs (step { testState [] with port := [.mk 0x58000000 .empty] }) (fun t =>
    t == { testState [] with replies := [⟨.illegalRequest, 0, none⟩] }) = true := by decide
theorem test_step_runs : nextIs (step { testState (oks 6) with port := [.mk 0x60000000 .empty, .mk 0 .empty] }) (fun t =>
    t.bl == 0 && t.port == [.mk 0 .empty] && t.replies == [⟨.ok, 0, none⟩]) = true := by decide
theorem test_step_fetch_word_from_reset :
    [0x10002700, 0x20003F00, 0x30000000, 0x40000000, 0x50000000, 0x60000001, 0x70000001, 0x80000000, 0x90000000,
      0xA0000028, 0xB0000041, 0xC0000502, 0xD0000E00, 0xE0000001].all (fun w =>
        nextIs (step (State.reset.withFetchWord 32 w)) fun _ => true) = true := by rfl

/-! ### Witnesses: states and operands that meet the hypotheses of the statements -/

theorem oks_grants {n m : Nat} (h : m ≤ n) (rest : List Answer) : (testState (oks n ++ rest)).grants m := by
  intro j hj
  refine ⟨0xFF, ?_⟩
  show (oks n ++ rest)[j]? = some (.ok 0xFF)
  rw [List.getElem?_append_left (by simp [oks]; omega)]
  exact List.getElem?_replicate_of_lt (by omega)

theorem oks_failsAt (k : Nat) (e : TransportError) : (testState (oks k ++ [.err e])).failsAt k e :=
  ⟨oks_grants (Nat.le_refl k) _, by
    show (oks k ++ [.err e])[k]? = some (.err e)
    rw [List.getElem?_append_right (by simp [oks])]
    simp [oks]⟩

/-- Requests made of byte transfers: an idle state that grants 6 writes, and states that fail at the first and at the last
of them (WriteCommandAndWriteData, ClearVisibilityAndShifts, SetBacklight, SetCursor, ByteTransferTrace,
ByteTransferCutShort, NibbleStrobe). -/
theorem witness_transfer : (testState (oks 6 ++ [])).seq = .idle ∧ (testState (oks 6 ++ [])).grants 6 ∧
    (testState (oks 6 ++ [])).grants 3 ∧ (testState (oks 0 ++ [.err 7])).failsAt 0 7 ∧
    (testState (oks 5 ++ [.err 7])).failsAt 5 7 :=
  ⟨rfl, oks_grants (by omega) _, oks_grants (by omega) _, oks_failsAt 0 7, oks_failsAt 5 7⟩

/-- Text (PutString, PutNumber, LatchedNibblesAreTheControllerBytes): the four transfers of "AB" at (18, 0), granted, and
failing at the last write; and the latched line byte with E low. -/
theorem witness_text : transfersOf (testState (oks 24 ++ [])).params.wrapOtherRows (.putstr 18 0 [0x41, 0x42]) =
      some [(0x92, 0), (0x41, 1), (0xC0, 0), (0x42, 1)] ∧
    (testState (oks 24 ++ [])).seq = .idle ∧ (testState (oks 24 ++ [])).grants (6 * 4) ∧
    (testState (oks 23 ++ [.err 7])).failsAt 23 7 ∧ (23 < 6 * 4) ∧ (0x08 : Byte) &&& 0x04 = 0x00 :=
  ⟨by decide, rfl, oks_grants (by omega) _, oks_failsAt 23 7, by decide, by decide⟩

/-- The empty text at (3, 1) is one transfer. -/
theorem witness_empty_text : transfersOf (testState (oks 6 ++ [])).params.wrapOtherRows (.putstr 3 1 []) = some [(0xC3, 0)] ∧
    (testState (oks 6 ++ [])).grants (6 * 1) := ⟨by decide, oks_grants (by omega) _⟩

/-- PutStringAddressesEveryCell, TextTransferCount, EventCounts: "AB" at (18, 0) and the empty text at (3, 1), with exactly
the writes they need granted, and a line byte with E low. -/
theorem witness_positionings :
    positionings (testState (oks 24 ++ [])).params.wrapOtherRows 18 0 [0x41, 0x42].length = 2 ∧
    (testState (oks 24 ++ [])).seq = .idle ∧
    (testState (oks 24 ++ [])).grants
      (6 * ([0x41, 0x42].length + positionings (testState (oks 24 ++ [])).params.wrapOtherRows 18 0 [0x41, 0x42].length)) ∧
    positionings (testState (oks 6 ++ [])).params.wrapOtherRows 3 1 0 = 1 ∧
    (testState (oks 6 ++ [])).grants (6 * (0 + positionings (testState (oks 6 ++ [])).params.wrapOtherRows 3 1 0)) ∧
    (0x38 : Byte) &&& 0x04 = 0x00 :=
  ⟨by decide, rfl, oks_grants (by decide) _, by decide, oks_grants (by decide) _, by decide⟩

/-- EventCounts, INIT with three raw nibbles, and PUTNUM of a one-digit number. -/
theorem witness_counts :
    ({ testState (oks 36 ++ []) with params := { testParams with nPre3 := .three } } : State).params.nPre3 = .three ∧
    ({ testState (oks 36 ++ []) with params := { testParams with nPre3 := .three } } : State).grants 36 ∧
    (testState (oks 33 ++ [])).params.nPre3 = .two ∧ (testState (oks 33 ++ [])).grants 33 ∧
    (testState (oks 12 ++ [])).grants
      (6 * ((dec 0).length + positionings (testState (oks 12 ++ [])).params.wrapOtherRows 0 0 (dec 0).length)) :=
  ⟨rfl, oks_grants (by omega) _, rfl, oks_grants (by omega) _, oks_grants (by decide) _⟩

/-- Initialize and InitOrder: granted, and failing at the first and at the last write. -/
theorem witness_init : (testState (oks 33 ++ [])).seq = .idle ∧
    (testState (oks 33 ++ [])).grants (3 * (preambleCount (testState (oks 33 ++ [])).params.nPre3 + 1) + 24) ∧
    (testState (oks 0 ++ [.err 7])).failsAt 0 7 ∧ (testState (oks 32 ++ [.err 7])).failsAt 32 7 ∧
    32 < 3 * (preambleCount (testState (oks 32 ++ [.err 7])).params.nPre3 + 1) + 24 :=
  ⟨rfl, oks_grants (by decide) _, oks_failsAt 0 7, oks_failsAt 32 7, by decide⟩

/-- The answers of a transport whose first accepting candidate is the last one, 0x3F. -/
theorem witness_probe_found :
    (∀ j, j < 15 → ¬ (testState (oks 60 ++ [.ok 0, .ok 0x07, .ok 0, .ok 0x00])).candidateAccepts j) ∧
    (testState (oks 60 ++ [.ok 0, .ok 0x07, .ok 0, .ok 0x00])).candidateAccepts 15 ∧
    (testState (oks 60 ++ [.ok 0, .ok 0x07, .ok 0, .ok 0x00])).grants (4 * (15 + 1)) := by
  refine ⟨by unfold State.candidateAccepts; decide +kernel, by unfold State.candidateAccepts; decide +kernel, ?_⟩
  intro j hj
  have h : ∀ j, j < 64 → ((testState (oks 60 ++ [.ok 0, .ok 0x07, .ok 0, .ok 0x00])).bus[j]?).any
      (fun r => match r with | .ok _ => true | .err _ => false) = true := by decide +kernel
  have hj' := h j hj
  cases hb : (testState (oks 60 ++ [.ok 0, .ok 0x07, .ok 0, .ok 0x00])).bus[j]? with
  | none => rw [hb] at hj'; simp at hj'
  | some r =>
    cases r with
    | ok d => exact ⟨d, rfl⟩
    | err e => rw [hb] at hj'; simp at hj'

/-- ProbeFindsTheFirstAcceptingCandidate at the first candidate; ProbeStrobesTheDisplay and EventCounts with `n = 1`. -/
theorem witness_probe_first : (testState [.ok 0, .ok 0x07, .ok 0, .ok 0x00]).seq = .idle ∧
    (testState [.ok 0, .ok 0x07, .ok 0, .ok 0x00]).grants (4 * (0 + 1)) ∧
    (testState [.ok 0, .ok 0x07, .ok 0, .ok 0x00]).candidateAccepts 0 := by
  refine ⟨rfl, fun j hj => ?_, by unfold State.candidateAccepts; decide⟩
  obtain rfl | rfl | rfl | rfl : j = 0 ∨ j = 1 ∨ j = 2 ∨ j = 3 := by omega
  all_goals exact ⟨_, rfl⟩

/-- ProbeNotFound: no candidate accepts 0xFF; ProbeStrobesTheDisplay with `n = 16`. -/
theorem witness_probe_notFound : (testState (oks 64 ++ [])).seq = .idle ∧ (testState (oks 64 ++ [])).grants 64 ∧
    ∀ j, j < 16 → ¬ (testState (oks 64 ++ [])).candidateAccepts j :=
  ⟨rfl, oks_grants (by omega) _, by unfold State.candidateAccepts; decide +kernel⟩

/-- ProbeEndsAtAFailingCall, at the first call and at the last one. -/
theorem witness_probe_error : (testState (oks 0 ++ [.err 7])).failsAt 0 7 ∧
    (∀ j, 4 * (j + 1) ≤ 0 → ¬ (testState (oks 0 ++ [.err 7])).candidateAccepts j) ∧
    (testState (oks 63 ++ [.err 7])).failsAt 63 7 ∧
    (∀ j, 4 * (j + 1) ≤ 63 → ¬ (testState (oks 63 ++ [.err 7])).candidateAccepts j) := by
  refine ⟨oks_failsAt 0 7, fun j hj => by omega, oks_failsAt 63 7, fun j hj => ?_⟩
  have h : ∀ j, j < 15 → ¬ (testState (oks 63 ++ [.err 7])).candidateAccepts j := by
    unfold State.candidateAccepts; decide +kernel
  exact h j (by omega)

/-- An idle state after a successful INIT of 0x27, with 24 writes granted. -/
def readyState : State :=
  { testState (oks 24 ++ []) with trace := initEvents 0x27 1 1 2, replies := [okReply 0] }

theorem eq_of_nextIs {o : Outcome} {t : State} (h : nextIs o (fun u => u == t) = true) : o = .next t := by
  cases o with
  | next u => exact congrArg _ (beq_iff_eq.1 h)
  | fault f => cases f
  | refused r => simp [nextIs] at h

theorem readyState_stepped :
    step { testState (oks 33 ++ (oks 24 ++ [])) with port := [.mk 0x10002700 .empty] } = .next readyState :=
  eq_of_nextIs (by decide +kernel)

/-- EveryCharacterLandsInItsCell and EnableLineRestsLow: "AB" at (18, 0) just after a successful INIT. -/
theorem witness_display : readyState.seq = .idle ∧ readyState.DisplayReady ∧
    (bytesTo readyState.addr readyState.trace).getLast? = some 0x18 ∧
    (∀ k, k < [0x41, 0x42].length → 0x80 ≤ (cellByte readyState.params.wrapOtherRows 18 0 k).toNat) ∧
    readyState.grants
      (6 * ([0x41, 0x42].length + positionings readyState.params.wrapOtherRows 18 0 [0x41, 0x42].length)) :=
  ⟨rfl, ⟨.init (rest := []) rfl (by decide) readyState_stepped rfl, rfl⟩, by decide +kernel, by decide,
    fun j hj => oks_grants (n := 24) (m := 24) (by omega) [] j (Nat.lt_of_lt_of_le hj (by decide))⟩

/-- SeventeenCharactersWrap. -/
theorem witness_seventeen : (testState (oks 114 ++ [])).seq = .idle ∧ (testState (oks 114 ++ [])).grants 114 :=
  ⟨rfl, oks_grants (by omega) _⟩

/-- Statements about a next state (TransportErrorsArePrecise, SequenceBrokenIsSticky, SequenceBrokenChangesNothing,
RegisterSelectIsNeverObserved, OnlyBklWritesTheBacklight, OnlyThreeRequestsWriteTheAddress,
EveryStrobeByteCarriesTheBacklight, ProbeIsBounded): requests of each kind that answer one. -/
theorem witness_next : (∃ t, exec (.wcmd 0x28) (testState (oks 6)) = .next t) ∧
    (∃ t, exec (.init 0x27) (testState [.err 1]) = .next t) ∧ (∃ t, exec (.setaddr 0x3F) (testState []) = .next t) ∧
    (∃ t, exec (.bkl 0) (testState (oks 6)) = .next t) ∧ (∃ t, exec .autodet (testState (oks 64)) = .next t) ∧
    (∃ t, exec .probe (testState [.err 1]) = .next t) ∧ isProber .probe = true ∧ isProber (.wcmd 0x28) = false :=
  ⟨⟨_, rfl⟩, ⟨_, rfl⟩, ⟨_, rfl⟩, ⟨_, rfl⟩, ⟨_, rfl⟩, ⟨_, rfl⟩, rfl, rfl⟩

/-- StepKeepsBrokenRecorded and StepKeepsTraceAllowed: a state that meets both, and its next state. -/
theorem witness_step : (testState []).BrokenRecorded ∧ (testState []).TraceAllowed ∧
    ∃ t, step ((testState (oks 6)).offer (.mk 0x50000000 .empty)) = .next t :=
  ⟨rfl, fun e he => absurd he (by simp [testState, State.powerOn]), ⟨_, rfl⟩⟩

/-- StepRunsTheDecodedRequest. -/
theorem witness_step_decodes : ({ testState [] with port := [.mk 0x50000000 .empty] } : State).seq = .idle ∧
    ({ testState [] with port := [.mk 0x50000000 .empty] } : State).port = Request.mk 0x50000000 .empty :: [] ∧
    decode (.mk 0x50000000 .empty) = some .clear := by decide

/-- BusyOrEmptyPortAcceptsNothing: a busy state, and an idle one with nothing at its port. -/
theorem witness_busy : ((testState []).accept).seq = .busy ∧ (testState []).seq = .idle ∧ (testState []).port = [] := by
  decide

/-- IllegalFormsGetNoEffect and ResponseTable: an idle state with a rejected request at its port, and a word for each form,
each differing from a legal word in one bit where the form allows it. -/
theorem witness_illegal :
    (({ testState [] with port := [.mk 0x58000000 .empty] } : State).seq = .idle ∧ decode (.mk 0x58000000 .empty) = none) ∧
    (0x00000000#32).extractLsb' 28 4 = 0x0 ∧ (0xF0000000#32).extractLsb' 28 4 = 0xF ∧
    (0x50010000#32).extractLsb' 16 12 ≠ 0 ∧
    (mnemonicOf ((0x30000001#32).extractLsb' 28 4) = some .autodet ∧ Mnemonic.autodet.format = .z ∧
      (0x30000001#32).extractLsb' 0 16 ≠ 0) ∧
    (mnemonicOf ((0x10008000#32).extractLsb' 28 4) = some .init ∧ Mnemonic.init.format = .ad ∧
      (0x10008000#32).extractLsb' 15 1 ≠ 0 ∧ (0x10002701#32).extractLsb' 0 8 ≠ 0) ∧
    (mnemonicOf ((0x60000002#32).extractLsb' 28 4) = some .bkl ∧ Mnemonic.bkl.format = .f ∧
      (0x60000002#32).extractLsb' 1 7 ≠ 0 ∧ (0x60000100#32).extractLsb' 8 8 ≠ 0) ∧
    (mnemonicOf ((0xB0000141#32).extractLsb' 28 4) = some .wdat ∧ Mnemonic.wdat.format = .byt ∧
      (0xB0000141#32).extractLsb' 8 8 ≠ 0) ∧
    (mnemonicOf ((0xC0000504#32).extractLsb' 28 4) = some .setcur ∧ Mnemonic.setcur.format = .cr ∧
      (0xC0000504#32).extractLsb' 2 6 ≠ 0) ∧
    mnemonicOf ((0xD0000000#32).extractLsb' 28 4) = some .putstr ∧
    255 < (List.replicate 256 (0x41 : Byte)).length := by decide +kernel

/-- Encoding statements: a well-formed request at the edge of its check, and a request that decodes. -/
theorem witness_encoding : (Instr.putstr 0xFF 3 (List.replicate 255 0xFF)).wf = true ∧
    decode (.mk 0xC000FF03 .empty) = some (.setcur 255 3) ∧
    (⟨.setcur, 0xC0000000, 0xFFFF00FC⟩ : OpRow) ∈ opcodeTable ∧
    (0xC000FF03#32) &&& 0xFFFF00FC = 0xC0000000 := by decide +kernel

/-- RegisterWrite: both answers. -/
theorem witness_register_write : (testState [.ok 0]).answerTo (.write 0x27 0x28) = .ok 0 ∧
    (testState [.err 7]).answerTo (.write 0x27 0x28) = .err 7 := by decide

/-- Placement: a value for each clause, where the clauses meet. -/
theorem witness_placement : ((0 : Byte).toNat ≤ 15 ∧ 15 < 16 - (0 : Byte).toNat) ∧
    ((15 : Byte).toNat ≤ 15 ∧ 16 - (15 : Byte).toNat ≤ 1) ∧ 16 ≤ (16 : Byte).toNat ∧ (3 : Row) ≠ 0 := by decide

/-- ProbeStrobesTheDisplay and the latching statements: a line byte with E low. -/
theorem witness_line_byte : (0x38 : Byte) &&& 0x04 = 0x00 := by decide

end Sys2Proof.Machine.Tests
end

/-! ### The architectural state: power-on, and who writes `ADDR` (10_state.md R15, R25) -/

namespace Sys2Proof.Machine

/-- A request other than AUTODET leaves `ADDR` as it stands before its first event: nothing after that point writes it,
whatever the transport answers (10_state.md R15). -/
theorem exec_addr_of_ne_autodet {i : Instr} {s t : State} (h : exec i s = .next t) (hi : i ≠ .autodet) :
    t.addr = (beforeEvents i s).addr := by
  obtain ⟨-, evs, u, -, ⟨code, value, path, -, ended⟩ | ⟨e, path, rfl⟩⟩ := exec_inv h
  · obtain ⟨rfl, -⟩ | ⟨a, rfl, -⟩ := ended
    · exact path.addr
    · exact absurd rfl hi
  · exact path.addr

/-- Of the requests other than AUTODET, only INIT and SETADDR write `ADDR` before their first event. -/
theorem beforeEvents_addr_of_ne {i : Instr} (s : State) (hinit : ∀ a, i ≠ .init a) (hset : ∀ a, i ≠ .setaddr a) :
    (beforeEvents i s).addr = s.addr := by
  cases i with
  | init a => exact absurd rfl (hinit a)
  | setaddr a => exact absurd rfl (hset a)
  | _ => rfl

/-- The three ways AUTODET ends, `u` being the state after its probe: a candidate found and written to `ADDR`, none found,
or a failed transport call (42_address.md R77, R81). -/
theorem exec_autodet_cases {s t : State} (h : exec .autodet s = .next t) :
    ∃ u : State, u.addr = s.addr ∧ u.replies = s.replies ∧
      ((∃ a ∈ candidates, t = (u.setAddr a).respond (okReply (a.setWidth 8))) ∨
       t = u.respond notFoundReply ∨ ∃ e, t = u.raiseTransportError e) := by
  obtain ⟨-, rfl⟩ := request_next h
  have lands := probeBus_obeys s.accept
  rw [Op.bind_run]
  cases hr : probeBus s.accept with
  | error e u =>
    rw [hr] at lands
    obtain ⟨evs, path, -⟩ := lands
    exact ⟨u, path.addr, path.replies, .inr (.inr ⟨e, rfl⟩)⟩
  | ok found u =>
    rw [hr] at lands
    obtain ⟨evs, path, -⟩ := lands
    refine ⟨u, path.addr, path.replies, ?_⟩
    cases found with
    | none => exact .inr (.inl rfl)
    | some a => exact .inl ⟨a, probeFrom_mem hr, rfl⟩

/-- Settles O40: from what a request does before its first event, and from the three ways AUTODET ends. -/
theorem onlyThreeRequestsWriteTheAddress : Obligations.OnlyThreeRequestsWriteTheAddress := by
  refine ⟨fun i s t h hinit hset hauto => ?_, fun a s t h => ?_, fun a s t h => ?_, fun s t h => ?_⟩
  · rw [exec_addr_of_ne_autodet h hauto, beforeEvents_addr_of_ne s hinit hset]
  · exact exec_addr_of_ne_autodet h (by simp)
  · exact exec_addr_of_ne_autodet h (by simp)
  · obtain ⟨u, haddr, hreplies, ⟨a, ha, rfl⟩ | rfl | ⟨e, rfl⟩⟩ := exec_autodet_cases h
    · exact ⟨okReply (a.setWidth 8), by simp [hreplies], fun _ => ⟨ha, rfl⟩, fun hne => absurd rfl hne⟩
    · exact ⟨notFoundReply, by simp [hreplies], by simp [notFoundReply], fun _ => haddr⟩
    · exact ⟨errorReply e, by simp [hreplies, errorReply], by simp [errorReply], fun _ => haddr⟩

/-- Settles O11: each field of `State.powerOn` is the value R25 gives it. -/
theorem powerOnState : Obligations.PowerOnState :=
  ⟨fun _ => ⟨rfl, rfl, rfl, rfl, rfl, rfl⟩, rfl, rfl, rfl, rfl, rfl, rfl⟩

end Sys2Proof.Machine

/-! ### Which requests decode (30_encoding.md R49, R50, R55) -/

namespace Sys2Proof

/-- What `decode` checks, in the order of 30_encoding.md R50. -/
theorem decode_eq_some_iff {q : Request} {i : Instr} :
    decode q = some i ↔ ∃ m, mnemonicOf (opField q.word) = some m ∧ rsvdField q.word = 0 ∧
      m.format.zerosHold q.word = true ∧ operandsOf m q.word q.payload = some i := by
  unfold decode
  cases mnemonicOf (opField q.word) with
  | none => simp
  | some m => simp [and_assoc]

theorem mnemonic_of_operandsOf {m : Mnemonic} {w : RequestWord} {p : Payload} {i : Instr}
    (h : operandsOf m w p = some i) : i.mnemonic = m := by
  cases m with
  | putstr =>
    obtain ⟨t, -, rfl⟩ := Option.map_eq_some_iff.1 h
    rfl
  | putnum =>
    obtain ⟨n, -, rfl⟩ := Option.map_eq_some_iff.1 h
    rfl
  | _ =>
    obtain rfl := Option.some.inj h
    rfl

/-- With the payload of its table word, every operation has its operands: the text is empty, so not too long. -/
theorem operandsOf_tablePayload {m : Mnemonic} {w : RequestWord} (h : mnemonicOf (opField w) = some m) :
    ∃ i, operandsOf m w (tablePayload w) = some i := by
  have hkind := payloadKind_of_mnemonicOf h
  cases m with
  | putstr =>
    have hp : tablePayload w = .text [] := by rw [tablePayload, hkind]; rfl
    exact ⟨_, by rw [hp]; rfl⟩
  | putnum =>
    have hp : tablePayload w = .number 0 := by rw [tablePayload, hkind]; rfl
    exact ⟨_, by rw [hp]; rfl⟩
  | _ => exact ⟨_, rfl⟩

theorem opcode_injective {m m' : Mnemonic} (h : m.opcode = m'.opcode) : m = m' := by
  have hm := mnemonicOf_opcode m
  rw [h, mnemonicOf_opcode] at hm
  exact (Option.some.inj hm).symm

/-- The words that decode to an operation, with some payload, by their fields. -/
theorem decodes_to_mnemonic_iff (w : RequestWord) (m : Mnemonic) :
    (∃ q i, q.word = w ∧ decode q = some i ∧ i.mnemonic = m) ↔
      opField w = m.opcode ∧ rsvdField w = 0 ∧ m.format.zerosHold w = true := by
  constructor
  · rintro ⟨q, i, rfl, hdec, rfl⟩
    obtain ⟨m, hop, hrsvd, hzeros, hi⟩ := decode_eq_some_iff.1 hdec
    obtain rfl := mnemonic_of_operandsOf hi
    exact ⟨(opcode_of_mnemonicOf hop).symm, hrsvd, hzeros⟩
  · rintro ⟨hop, hrsvd, hzeros⟩
    have hm : mnemonicOf (opField w) = some m := by rw [hop, mnemonicOf_opcode]
    obtain ⟨i, hi⟩ := operandsOf_tablePayload hm
    exact ⟨⟨w, tablePayload w, tablePayload_kind w⟩, i, rfl, decode_eq_some_iff.2 ⟨m, hm, hrsvd, hzeros, hi⟩,
      mnemonic_of_operandsOf hi⟩

theorem exists_row_of_mnemonic (m : Mnemonic) : ∃ r ∈ opcodeTable, r.mnemonic = m := by cases m <;> decide

theorem row_eq_of_mnemonic_eq :
    ∀ r ∈ opcodeTable, ∀ r' ∈ opcodeTable, r.mnemonic = r'.mnemonic → r = r' := by decide

/-- Settles O3: a row's masked comparison and the decoder check the same three fields, and two rows that accept one word
have the same `OP`. -/
theorem legalWordsAreTheTableRows : Obligations.LegalWordsAreTheTableRows := by
  refine ⟨fun w r hr => ?_, fun _ i _ => exists_row_of_mnemonic i.mnemonic, fun w r r' hr hr' h h' => ?_⟩
  · rw [decodes_to_mnemonic_iff, row_accepts_iff hr]
  · obtain ⟨hop, -⟩ := (row_accepts_iff hr w).1 h
    obtain ⟨hop', -⟩ := (row_accepts_iff hr' w).1 h'
    exact row_eq_of_mnemonic_eq r hr r' hr' (opcode_injective (hop.symm.trans hop'))

/-! ### Which forms the decoder rejects -/

/-- The must-be-zero bits of each format, by their places in the request word (30_encoding.md R46, R47). -/
theorem zero_bits_of_zerosHold {fmt : Format} {w : RequestWord} (h : fmt.zerosHold w = true) :
    (fmt = .z → w.extractLsb' 0 16 = 0) ∧
    (fmt = .ad → w.extractLsb' 15 1 = 0 ∧ w.extractLsb' 0 8 = 0) ∧
    (fmt = .f → w.extractLsb' 8 8 = 0 ∧ w.extractLsb' 1 7 = 0) ∧
    (fmt = .byt → w.extractLsb' 8 8 = 0) ∧
    (fmt = .cr ∨ fmt = .crt ∨ fmt = .crn → w.extractLsb' 2 6 = 0) := by
  rw [low_half_eq_zero_iff, addr_top_bit, flag_top_bits, row_top_bits, ← fieldA, ← fieldB]
  cases fmt <;> simpa [Format.zerosHold, -BitVec.extractLsb'_eq_zero] using h

/-- The two reserved `OP` values are no operation (30_encoding.md R49, R55). -/
theorem mnemonicOf_reserved {op : BitVec 4} (h : op = 0x0 ∨ op = 0xF) : mnemonicOf op = none := by
  obtain rfl | rfl := h <;> rfl

/-- A PUTSTR text that stands in a request that decodes has at most `TEXT_MAX` bytes (30_encoding.md R50). -/
theorem length_le_of_operandsOf_putstr {w : RequestWord} {t : List Byte} {i : Instr}
    (h : operandsOf .putstr w (.text t) = some i) : t.length ≤ Config.textMax := by
  obtain ⟨u, hu, -⟩ := Option.map_eq_some_iff.1 h
  obtain ⟨htext, hlen⟩ := legalText_eq_some.1 hu
  obtain rfl := Payload.text.inj htext
  exact hlen

end Sys2Proof

namespace Sys2Proof.Machine

/-- A rejected request that the idle block takes from its port: the response and nothing else (60_exceptions.md R96). -/
theorem step_of_decode_none {s : State} {q : Request} {rest : List Request} (hidle : s.seq = .idle)
    (hport : s.port = q :: rest) (hdec : decode q = none) : step s = .next (s.withPort rest).rejectIllegal := by
  simp [step, State.nextRequest, hidle, hport, hdec]

/-- Delivering the illegal request's response leaves an idle block idle, so only the replies change. -/
theorem rejectIllegal_of_idle {s : State} (hidle : s.seq = .idle) :
    s.rejectIllegal = { s with replies := s.replies ++ [⟨.illegalRequest, 0, none⟩] } := by
  obtain ⟨⟩ := s
  obtain rfl := hidle
  rfl

/-- Settles O4: the step by its branch for a rejected request; and each illegal form contradicts one of the checks that a
request which decodes has passed. -/
theorem illegalFormsGetNoEffect : Obligations.IllegalFormsGetNoEffect := by
  refine ⟨fun s q rest hidle hport hdec => ?_, fun q hbad => Option.eq_none_iff_forall_ne_some.2 fun i hdec => ?_⟩
  · rw [step_of_decode_none hidle hport hdec, rejectIllegal_of_idle (by simpa using hidle)]
    rfl
  obtain ⟨m, hop, hrsvd, hzeros, hi⟩ := decode_eq_some_iff.1 hdec
  obtain ⟨hz, had, hf, hbyt, hcr⟩ := zero_bits_of_zerosHold hzeros
  have hreserved : ¬ (opField q.word = 0x0 ∨ opField q.word = 0xF) := fun h => by
    simp [mnemonicOf_reserved h] at hop
  obtain h | h | h | ⟨m', hop', hform⟩ := hbad
  · exact hreserved (.inl h)
  · exact hreserved (.inr h)
  · exact h hrsvd
  obtain rfl : m = m' := Option.some.inj (hop.symm.trans hop')
  obtain ⟨hm, h⟩ | ⟨hm, h | h⟩ | ⟨hm, h | h⟩ | ⟨hm, h⟩ | ⟨hm, h⟩ | ⟨rfl, t, htext, hlong⟩ := hform
  · exact h (hz hm)
  · exact h (had hm).1
  · exact h (had hm).2
  · exact h (hf hm).1
  · exact h (hf hm).2
  · exact h (hbyt hm)
  · exact h (hcr hm)
  · rw [htext] at hi
    exact absurd (length_le_of_operandsOf_putstr hi) (Nat.not_le.2 hlong)

/-! ### The wire byte and the requests that are WCMD (30_encoding.md R51, R52, R58) -/

/-- The wire byte, field by field from the top bit (30_encoding.md R51). -/
theorem wire_eq_append (n : Nibble) (bl e rs : Bit) : wire n bl e rs = n ++ bl ++ e ++ (0 : Bit) ++ rs := by
  revert n bl e rs; decide

/-- Settles O12: the five fields of the appended byte. -/
theorem wireByteLayout : Obligations.WireByteLayout := by
  intro n bl e rs
  rw [wire_eq_append]
  simp only [BitVec.extractLsb'_append_eq_of_le, BitVec.extractLsb'_append_eq_right, BitVec.extractLsb'_eq_self,
    Nat.one_le_ofNat, Nat.reduceSub, Nat.le_refl, and_self]

/-- A request whose only transfer is the command `b` is WCMD of `b`, after `BL` has been written where it is BKL. -/
theorem exec_eq_wcmd {i : Instr} {s : State} {b : Byte} (h : transfersOf s.params.wrapOtherRows i = some [(b, 0)]) :
    exec i s = exec (.wcmd b) { s with bl := backlightDuring i s.bl } := by
  rw [exec_transfers h, exec_transfers (i := .wcmd b) rfl]
  rfl

/-- Settles O24: each request but PUTNUM has one command as its only transfer, and PUTNUM runs the text loop on `dec n`
by definition. -/
theorem pseudoRequests : Obligations.PseudoRequests := fun s col row n f =>
  ⟨exec_eq_wcmd rfl, exec_eq_wcmd rfl, exec_eq_wcmd rfl, exec_eq_wcmd rfl, exec_eq_wcmd rfl,
    exec_eq_wcmd (by rw [transfersOf, caddr_eq]), rfl, exec_eq_wcmd rfl⟩

end Sys2Proof.Machine

/-! ### The micro-operations and the requests WCMD and WDAT (40_sequencer.md R59 to R65) -/

namespace Sys2Proof.Machine

/-- Settles O14: the write goes on to the pause exactly when the transport's answer is `ok`. -/
theorem registerWrite : Obligations.RegisterWrite := by
  intro s v
  rw [reg_run]
  refine ⟨fun d hok => ?_, fun e herr => ?_⟩
  · simp [perform, Op.bind_run, busWrite_run, hok, delay_eq, State.advance]
  · simp [perform, Op.bind_run, busWrite_run, herr, State.advance]

/-- The first byte of a strobe: the nibble in bits [7:4], the two lines below it, and E low (30_encoding.md R52). -/
theorem wire_eq_or_lineMask (n : Nibble) (bl rs : Bit) :
    wire n bl 0 rs = (n.setWidth 8 <<< 4) ||| lineMask bl rs := by
  revert n bl rs; decide

/-- A nibble whose writes all succeed: its strobe, and no other change (40_sequencer.md R60). -/
theorem nib_ok {s : State} (n : Nibble) (h : s.grants 3) :
    nib n s = .ok () (s.advance (strobeEvents s.addr s.params.tWrite ((n.setWidth 8 <<< 4) ||| lineMask s.bl s.rs))) := by
  rw [nib_run, wire_eq_or_lineMask]
  exact perform_ok (noReads_strobeEvents _ _ _) h

/-- Settles O15: the six events of the strobe, written out. -/
theorem nibbleStrobe : Obligations.NibbleStrobe := fun _ n hgrants => nib_ok n hgrants

/-- Settles O16: the two strobes of the byte, written out. -/
theorem byteTransferTrace : Obligations.ByteTransferTrace := fun _ b rs hgrants => byteTransfer_ok b rs hgrants

/-- After at least one transfer, the `RS` from before them no longer shows. -/
theorem lastRs_eq_of_ne_nil {l : List (Byte × Bit)} (hne : l ≠ []) (r : Bit) : lastRs r l = (l.getLastD (0, 0)).2 := by
  cases l with
  | nil => exact absurd rfl hne
  | cons x rest => rw [lastRs_cons]; cases rest <;> rfl

theorem request_of_idle {s : State} (hidle : s.seq = .idle) (x : Op (Code × Byte)) :
    request x s = .next (settle (x s.accept)) := by
  rw [request, hidle]

/-- A request accepted from IDLE that went on to its response is IDLE again: `RS`, the events and the reply are all that
changed. -/
theorem respond_of_accept {s : State} (hidle : s.seq = .idle) (r : Bit) (evs : List Event) (reply : Response) :
    ((s.accept.setRs r).advance evs).respond reply = { s with rs := r }.afterEvents evs reply := by
  obtain ⟨⟩ := s
  obtain rfl := hidle
  rfl

/-- A request cut short is IDLE again too, with `SEQ_BROKEN` set besides (60_exceptions.md R94). -/
theorem raiseTransportError_of_accept {s : State} (hidle : s.seq = .idle) (r : Bit) (evs : List Event) (e : TransportError) :
    ((s.accept.setRs r).advance evs).raiseTransportError e =
      { s with rs := r, seqBroken := true }.afterEvents evs (errorReply e) := by
  obtain ⟨⟩ := s
  obtain rfl := hidle
  rfl

/-- A sequence of byte transfers run as a request, every write granted (40_sequencer.md R62). -/
theorem request_sendAll_ok {s : State} {l : List (Byte × Bit)} (hidle : s.seq = .idle) (hne : l ≠ [])
    (hgrants : s.grants (6 * l.length)) :
    request (do sendAll l; return (.ok, 0)) s = .next ({ s with rs := (l.getLastD (0, 0)).2 }.afterEvents
      (transferEvents s.addr s.params.tWrite s.bl l) (okReply 0)) := by
  have hsent := sendAll_ok (s := s.accept) hgrants
  rw [request_of_idle hidle, Op.bind_ok hsent, lastRs_eq_of_ne_nil hne]
  exact congrArg _ (respond_of_accept hidle _ _ _)

/-- A sequence of byte transfers run as a request whose write number `k` fails (40_sequencer.md R63; 60_exceptions.md R94). -/
theorem request_sendAll_error {s : State} {l : List (Byte × Bit)} {k : Nat} {e : TransportError} (hidle : s.seq = .idle)
    (hk : k < 6 * l.length) (hfails : s.failsAt k e) :
    request (do sendAll l; return (.ok, 0)) s =
      .next ({ s with rs := (l.getD (k / 6) (0, 0)).2, seqBroken := true }.afterEvents
        (cutAfterCall k (transferEvents s.addr s.params.tWrite s.bl l)) (errorReply e)) := by
  have hcut := sendAll_error (s := s.accept) hk hfails
  rw [request_of_idle hidle, Op.bind_error hcut]
  exact congrArg _ (raiseTransportError_of_accept hidle _ _ _)

/-- A request made of byte transfers, run from IDLE, sends them, starting from the state with `BL` written where the request
is BKL. -/
theorem sendsTransfers_of_transfersOf {i : Instr} {s : State} {l : List (Byte × Bit)} (hidle : s.seq = .idle)
    (hl : transfersOf s.params.wrapOtherRows i = some l) (hne : l ≠ []) :
    SendsTransfers i s { s with bl := backlightDuring i s.bl } l := by
  rw [SendsTransfers, exec_transfers hl]
  exact ⟨fun hgrants => request_sendAll_ok hidle hne hgrants, fun k e hk hfails => request_sendAll_error hidle hk hfails⟩

/-- A request word with `A = 0` is its `OP` over its `B` (30_encoding.md R47, R57). -/
theorem assembleWord_zero_left (op : BitVec 4) (b : Byte) : assembleWord op 0 b = assembleWord op 0 0 ||| b.setWidth 32 := by
  apply BitVec.eq_of_getLsbD_eq
  intro j hj
  simp only [assembleWord, BitVec.getLsbD_append, BitVec.getLsbD_or, BitVec.getLsbD_setWidth]
  by_cases hlow : j < 8
  · simp [hlow, hj]
  · simp [hlow, BitVec.getLsbD_of_ge b j (by omega)]

/-- Settles O18: the two words have `A = 0`, and the two requests are one byte transfer each. -/
theorem writeCommandAndWriteData : Obligations.WriteCommandAndWriteData := fun _ b hidle =>
  ⟨⟨assembleWord_zero_left 0xA b, sendsTransfers_of_transfersOf hidle rfl (List.cons_ne_nil _ _)⟩,
   ⟨assembleWord_zero_left 0xB b, sendsTransfers_of_transfersOf hidle rfl (List.cons_ne_nil _ _)⟩⟩

end Sys2Proof.Machine

/-! ### The LCD operations CLEAR, BKL, VIS, SHL, SHR and INIT (41_lcd_ops.md R68 to R74) -/

namespace Sys2Proof.Machine

/-- A request word is its `OP`, its `A` and its `B`, each in its place (30_encoding.md R46). -/
theorem assembleWord_eq_or (op : BitVec 4) (a b : Byte) :
    assembleWord op a b = assembleWord op 0 0 ||| (a.setWidth 32 <<< 8) ||| b.setWidth 32 := by
  apply BitVec.eq_of_getLsbD_eq
  intro j hj
  simp only [assembleWord, BitVec.getLsbD_append, BitVec.getLsbD_or, BitVec.getLsbD_setWidth, BitVec.getLsbD_shiftLeft]
  by_cases hB : j < 8
  · simp [hB, hj]
  by_cases hA : j - 8 < 8
  · simp [hB, hA, hj, Nat.le_of_not_lt hB, show j - 8 < 32 by omega]
  · simp [hB, hA, BitVec.getLsbD_of_ge b j (by omega), BitVec.getLsbD_of_ge a (j - 8) (by omega)]

/-- A request whose only transfer is the command `b` and that does not write `BL` sends that command (30_encoding.md R58). -/
theorem sendsTransfers_of_command {i : Instr} {s : State} {b : Byte} (hidle : s.seq = .idle)
    (hl : transfersOf s.params.wrapOtherRows i = some [(b, 0)]) (hbl : backlightDuring i s.bl = s.bl) :
    SendsTransfers i s s [(b, 0)] := by
  have hsends := sendsTransfers_of_transfersOf hidle hl (List.cons_ne_nil _ _)
  rwa [hbl] at hsends

/-- Settles O19: the only transfer of each of the five requests is its command, and none of them writes `BL`. -/
theorem clearVisibilityAndShifts : Obligations.ClearVisibilityAndShifts := fun _ hidle =>
  ⟨⟨rfl, sendsTransfers_of_command hidle rfl rfl⟩,
    ⟨rfl, sendsTransfers_of_command hidle rfl rfl⟩,
    ⟨rfl, sendsTransfers_of_command hidle rfl rfl⟩,
    ⟨rfl, sendsTransfers_of_command hidle rfl rfl⟩,
    ⟨rfl, sendsTransfers_of_command hidle rfl rfl⟩⟩

/-- The request word of BKL: `f` in the lowest bit (30_encoding.md R47). -/
theorem encodeWord_bkl (f : Bit) : encodeWord (.bkl f) = 0x60000000 ||| f.setWidth 32 :=
  calc encodeWord (.bkl f) = 0x60000000 ||| (f.setWidth 8).setWidth 32 := assembleWord_zero_left 0x6 _
    _ = 0x60000000 ||| f.setWidth 32 := by simp

/-- Settles O20: BKL is one byte transfer, sent from the state with `BL` written. -/
theorem setBacklight : Obligations.SetBacklight := fun _ f hidle =>
  ⟨encodeWord_bkl f, sendsTransfers_of_transfersOf hidle rfl (List.cons_ne_nil _ _)⟩

/-- The request word of INIT: the address in `A` (30_encoding.md R47). -/
theorem encodeWord_init (a : DevAddr) : encodeWord (.init a) = 0x10000000 ||| (a.setWidth 32 <<< 8) :=
  calc encodeWord (.init a) = 0x10000000 ||| ((a.setWidth 8).setWidth 32 <<< 8) ||| 0 := assembleWord_eq_or 0x1 _ 0
    _ = 0x10000000 ||| (a.setWidth 32 <<< 8) := by simp

/-- INIT with every write granted: the whole trace, to the new address (41_lcd_ops.md R68). -/
theorem exec_init_ok {s : State} (a : DevAddr) (hidle : s.seq = .idle)
    (hgrants : s.grants (3 * (preambleCount s.params.nPre3 + 1) + 24)) :
    exec (.init a) s = .next ({ s with addr := a, rs := 0 }.afterEvents
      (initEvents a s.params.tWrite s.bl (preambleCount s.params.nPre3)) (okReply 0)) := by
  have hran := perform_ok (s := (s.accept.setAddr a).setRs 0)
    (noReads_initEvents a s.params.tWrite s.bl (preambleCount s.params.nPre3)) (by rwa [callCount_initEvents])
  rw [exec_init a hidle, Op.bind_ok hran]
  exact congrArg _ (respond_of_accept (s := s.setAddr a) hidle 0 _ _)

/-- INIT whose write number `k` fails: the trace up to that write, and `ADDR` written all the same (41_lcd_ops.md R68). -/
theorem exec_init_error {s : State} (a : DevAddr) {k : Nat} {e : TransportError} (hidle : s.seq = .idle)
    (hk : k < 3 * (preambleCount s.params.nPre3 + 1) + 24) (hfails : s.failsAt k e) :
    exec (.init a) s = .next ({ s with addr := a, rs := 0, seqBroken := true }.afterEvents
      (cutAfterCall k (initEvents a s.params.tWrite s.bl (preambleCount s.params.nPre3))) (errorReply e)) := by
  have hcut := perform_error (s := (s.accept.setAddr a).setRs 0)
    (noReads_initEvents a s.params.tWrite s.bl (preambleCount s.params.nPre3)) (by rwa [callCount_initEvents]) hfails
  rw [exec_init a hidle, Op.bind_error hcut]
  exact congrArg _ (raiseTransportError_of_accept (s := s.setAddr a) hidle 0 _ _)

/-- Settles O25: INIT is the performing of its events, which hold no read, from the state with `ADDR` and `RS` written. -/
theorem execInitialize : Obligations.Initialize := fun _ a hidle =>
  ⟨encodeWord_init a, exec_init_ok a hidle, fun _ _ hk hfails => exec_init_error a hidle hk hfails⟩

/-! ### What INIT latches at the device (41_lcd_ops.md R69; 20_memory.md R36) -/

/-- One raw nibble of the preamble latches that nibble, to the instruction register, and leaves E low; its gap puts nothing
on the lines. -/
theorem latched_rawNibbleEvents {p n : Byte} (hp : p &&& 4 = 0) (hn : n &&& 0x0F = 0) (a : DevAddr) (t : Ms) (bl : Bit)
    (rest : List Byte) :
    ∃ q : Byte, q &&& 4 = 0 ∧
      latched p (bytesTo a (rawNibbleEvents a t bl n) ++ rest) = (n.extractLsb' 4 4, 0) :: latched q rest := by
  have lines : ∀ (n : Byte) (bl : Bit), n &&& 0x0F = 0 → (n ||| lineMask bl 0) &&& 4 = 0 ∧
      (n ||| lineMask bl 0).extractLsb' 4 4 = n.extractLsb' 4 4 ∧ (n ||| lineMask bl 0).extractLsb' 0 1 = 0 := by decide
  obtain ⟨hlow, hnibble, hrs⟩ := lines n bl hn
  have hbytes : bytesTo a (rawNibbleEvents a t bl n) =
      [n ||| lineMask bl 0, n ||| lineMask bl 0 ||| 4, n ||| lineMask bl 0] := by
    simp [rawNibbleEvents, strobeEvents, bytesTo]
  refine ⟨_, hlow, ?_⟩
  rw [hbytes, latched_strobe hp hlow, hnibble, hrs]

/-- The repeated nibble of the preamble is latched each time. -/
theorem latched_replicate_rawNibbleEvents {p n : Byte} (hp : p &&& 4 = 0) (hn : n &&& 0x0F = 0) (a : DevAddr) (t : Ms)
    (bl : Bit) (count : Nat) (rest : List Byte) :
    ∃ q : Byte, q &&& 4 = 0 ∧
      latched p (bytesTo a (List.replicate count (rawNibbleEvents a t bl n)).flatten ++ rest) =
        List.replicate count (n.extractLsb' 4 4, 0) ++ latched q rest := by
  induction count generalizing p with
  | zero => exact ⟨p, hp, rfl⟩
  | succ count ih =>
    rw [List.replicate_succ, List.flatten_cons, bytesTo_append, List.append_assoc]
    obtain ⟨q, hq, hfirst⟩ := latched_rawNibbleEvents hp hn a t bl
      (bytesTo a (List.replicate count (rawNibbleEvents a t bl n)).flatten ++ rest)
    obtain ⟨r, hr, hothers⟩ := ih hq
    exact ⟨r, hr, by rw [hfirst, hothers, List.replicate_succ, List.cons_append]⟩

/-- What INIT's whole trace latches: the raw nibbles, then the two nibbles of each command. -/
theorem latched_initEvents {p : Byte} (hp : p &&& 4 = 0) (a : DevAddr) (t : Ms) (bl : Bit) (count : Nat) :
    latched p (bytesTo a (initEvents a t bl count)) =
      List.replicate count (0x3, 0) ++ [(0x2, 0)] ++ nibblesOf [(0x28, 0), (0x0C, 0), (0x06, 0), (0x01, 0)] := by
  obtain ⟨q, hq, hthrees⟩ := latched_replicate_rawNibbleEvents (n := 0x30) hp rfl a t bl count
    (bytesTo a (rawNibbleEvents a t bl 0x20) ++
      bytesTo a (transferEvents a t bl [(0x28, 0), (0x0C, 0), (0x06, 0), (0x01, 0)]))
  obtain ⟨r, hr, htwo⟩ := latched_rawNibbleEvents (n := 0x20) hq rfl a t bl
    (bytesTo a (transferEvents a t bl [(0x28, 0), (0x0C, 0), (0x06, 0), (0x01, 0)]))
  rw [initEvents, bytesTo_append, bytesTo_append, List.append_assoc, hthrees, htwo,
    latched_transferEvents a t bl _ hr, List.append_assoc]
  rfl

/-- Settles O26: the trace of a successful INIT is `initEvents`. -/
theorem initOrder : Obligations.InitOrder := fun s a _ hidle hp hgrants =>
  ⟨_, initEvents a s.params.tWrite s.bl (preambleCount s.params.nPre3), exec_init_ok a hidle hgrants, rfl,
    latched_initEvents hp _ _ _ _⟩

end Sys2Proof.Machine

/-! ### SETADDR (42_address.md R76) -/

namespace Sys2Proof.Machine

/-- The request word of SETADDR: the address in `A` (30_encoding.md R47). -/
theorem encodeWord_setaddr (a : DevAddr) : encodeWord (.setaddr a) = 0x20000000 ||| (a.setWidth 32 <<< 8) :=
  calc encodeWord (.setaddr a) = 0x20000000 ||| ((a.setWidth 8).setWidth 32 <<< 8) ||| 0 := assembleWord_eq_or 0x2 _ 0
    _ = 0x20000000 ||| (a.setWidth 32 <<< 8) := by simp

/-- Accepting a request from IDLE and answering it, with nothing done in between, adds the response and changes nothing
else: `SEQ` is IDLE again. -/
theorem accept_respond {s : State} (hidle : s.seq = .idle) (reply : Response) :
    s.accept.respond reply = { s with replies := s.replies ++ [reply] } := by
  obtain ⟨⟩ := s
  obtain rfl := hidle
  rfl

/-- SETADDR from IDLE: its body is the one write of `ADDR`, so what is left is its being accepted and answered. -/
theorem exec_setaddr (a : DevAddr) {s : State} (hidle : s.seq = .idle) :
    exec (.setaddr a) s = .next { s with addr := a, replies := s.replies ++ [okReply 0] } :=
  calc exec (.setaddr a) s = .next ((s.setAddr a).accept.respond (okReply 0)) := request_of_idle hidle _
    _ = .next { s with addr := a, replies := s.replies ++ [okReply 0] } :=
      congrArg _ (accept_respond (s := s.setAddr a) hidle _)

/-- Settles O27: the word of SETADDR, and its one write of `ADDR`. -/
theorem setAddress : Obligations.SetAddress := fun _ a hidle => ⟨encodeWord_setaddr a, exec_setaddr a hidle⟩

end Sys2Proof.Machine

/-! ### The layout unit: SETCUR, PUTSTR, PUTNUM and their text (43_layout.md R83 to R92) -/

namespace Sys2Proof.Machine

/-- A request word with a column in `A` and a row in the low bits of `B` (30_encoding.md R47, formats CR, CRT, CRN). -/
theorem assembleWord_col_row (op : BitVec 4) (col : Byte) (row : Row) :
    assembleWord op col (row.setWidth 8) = assembleWord op 0 0 ||| (col.setWidth 32 <<< 8) ||| row.setWidth 32 := by
  rw [assembleWord_eq_or, BitVec.setWidth_setWidth (by decide)]

/-- Settles O21: SETCUR's only transfer is the positioning command, and it does not write `BL`. -/
theorem setCursor : Obligations.SetCursor := fun _ col row hidle =>
  ⟨assembleWord_col_row 0xC col row, sendsTransfers_of_command hidle rfl rfl⟩

/-! ### Where the transfers of a text end -/

/-- A text that is not empty ends with its last character, sent as data (43_layout.md R88). -/
theorem textTransfers_concat (mode : WrapOtherRows) (col : Byte) (row : Row) (text : List Byte) (t : Byte) :
    ∃ before, textTransfers mode col row (text ++ [t]) = before ++ [(t, 1)] := by
  refine ⟨(text.zipIdx.flatMap fun x => charTransfers mode col row x.2 x.1) ++
    if startsRun mode col row text.length then [(cellByte mode col row text.length, 0)] else [], ?_⟩
  simp [textTransfers, List.zipIdx_append, charTransfers]

/-- The register select after a text that is not empty is that of its last character (43_layout.md R88). -/
theorem rs_getLastD_textTransfers (mode : WrapOtherRows) (col : Byte) (row : Row) {text : List Byte} (hne : text ≠ []) :
    ((textTransfers mode col row text).getLastD (0, 0)).2 = 1 := by
  obtain ⟨before, h⟩ := textTransfers_concat mode col row text.dropLast (text.getLast hne)
  rw [List.dropLast_append_getLast] at h
  simp [h]

/-- Every text sends at least one transfer: the empty one its positioning command (43_layout.md R89). -/
theorem textTransfers_ne_nil (mode : WrapOtherRows) (col : Byte) (row : Row) (text : List Byte) :
    textTransfers mode col row text ≠ [] := by
  by_cases htext : text = []
  · simp [textTransfers, htext]
  · intro h
    have hrs := rs_getLastD_textTransfers mode col row htext
    simp [h] at hrs

/-- Settles O22: PUTSTR is made of the transfers of its text, of which there is at least one. -/
theorem putString : Obligations.PutString := fun _ col row text hidle =>
  ⟨assembleWord_col_row 0xD col row, sendsTransfers_of_transfersOf hidle rfl (textTransfers_ne_nil _ _ _ text)⟩

/-! ### Decimal text (43_layout.md R91) -/

theorem toNat_digitByte {d : Nat} (hd : d < 10) : (digitByte d).toNat = 0x30 + d := by
  rw [digitByte, BitVec.toNat_ofNat]
  exact Nat.mod_eq_of_lt (by omega)

/-- A digit after a list of digits counts once, and the list ten times. -/
theorem digitsValue_concat (l : List Byte) (b : Byte) :
    digitsValue (l ++ [b]) = 10 * digitsValue l + (b.toNat - 0x30) := by
  simp [digitsValue]

theorem decDigits_of_lt {n : Nat} (fuel : Nat) (hn : n < 10) : decDigits (fuel + 1) n = [digitByte n] := if_pos hn

theorem decDigits_of_ge {n : Nat} (fuel : Nat) (hn : ¬ n < 10) :
    decDigits (fuel + 1) n = decDigits fuel (n / 10) ++ [digitByte (n % 10)] := if_neg hn

/-- The digits of a number that the fuel reaches spell it. -/
theorem digitsValue_decDigits {fuel n : Nat} (hn : n < 10 ^ fuel) : digitsValue (decDigits fuel n) = n := by
  induction fuel generalizing n with
  | zero =>
    obtain rfl : n = 0 := by simpa using hn
    rfl
  | succ fuel ih =>
    by_cases h : n < 10
    · rw [decDigits_of_lt fuel h]
      simp [digitsValue, toNat_digitByte h]
    · have hdiv : n / 10 < 10 ^ fuel := Nat.div_lt_of_lt_mul (by rwa [← Nat.pow_succ'])
      rw [decDigits_of_ge fuel h, digitsValue_concat, ih hdiv, toNat_digitByte (Nat.mod_lt n (by decide))]
      omega

/-- Every byte of `decDigits` is the byte of a digit. -/
theorem exists_digit_of_mem_decDigits {fuel n : Nat} {b : Byte} (hb : b ∈ decDigits fuel n) :
    ∃ d, d < 10 ∧ b = digitByte d := by
  induction fuel generalizing n with
  | zero => simp [decDigits] at hb
  | succ fuel ih =>
    by_cases h : n < 10
    · rw [decDigits_of_lt fuel h, List.mem_singleton] at hb
      exact ⟨n, h, hb⟩
    · rw [decDigits_of_ge fuel h, List.mem_append, List.mem_singleton] at hb
      obtain hb | hb := hb
      · exact ih hb
      · exact ⟨n % 10, Nat.mod_lt n (by decide), hb⟩

theorem length_decDigits_le (fuel n : Nat) : (decDigits fuel n).length ≤ fuel := by
  induction fuel generalizing n with
  | zero => rfl
  | succ fuel ih =>
    by_cases h : n < 10
    · simp [decDigits_of_lt fuel h]
    · simpa [decDigits_of_ge fuel h] using ih (n / 10)

/-- The first digit of a positive number that the fuel reaches is not zero: dividing by ten what has a further digit leaves
it positive. -/
theorem head?_decDigits {fuel n : Nat} (hpos : 0 < n) (hn : n < 10 ^ fuel) :
    ∃ d, 0 < d ∧ d < 10 ∧ (decDigits fuel n).head? = some (digitByte d) := by
  induction fuel generalizing n with
  | zero => exact absurd hpos (by simpa using hn)
  | succ fuel ih =>
    by_cases h : n < 10
    · exact ⟨n, hpos, h, by rw [decDigits_of_lt fuel h]; rfl⟩
    · have hdiv : n / 10 < 10 ^ fuel := Nat.div_lt_of_lt_mul (by rwa [← Nat.pow_succ'])
      obtain ⟨d, hd, hlt, hhead⟩ := ih (by omega) hdiv
      exact ⟨d, hd, hlt, by simp [decDigits_of_ge fuel h, hhead]⟩

theorem decDigits_ne_nil (fuel n : Nat) : decDigits (fuel + 1) n ≠ [] := by
  by_cases h : n < 10
  · simp [decDigits_of_lt fuel h]
  · simp [decDigits_of_ge fuel h]

/-- No leading zero: only the number 0 has the digit 0 first, and that is its only digit. -/
theorem decDigits_eq_zero_of_head? {fuel n : Nat} (hn : n < 10 ^ (fuel + 1))
    (hhead : (decDigits (fuel + 1) n).head? = some 0x30) : decDigits (fuel + 1) n = [0x30] := by
  obtain rfl | hpos := Nat.eq_zero_or_pos n
  · rfl
  · obtain ⟨d, hd, hlt, hfirst⟩ := head?_decDigits hpos hn
    have hzero : digitByte d = 0x30 := Option.some.inj (hfirst.symm.trans hhead)
    have hvalue : 0x30 = 0x30 + d := (congrArg BitVec.toNat hzero.symm).trans (toNat_digitByte hlt)
    omega

/-- `dec` is the sign and the digits of the magnitude. -/
theorem dec_eq_append (n : BitVec 32) :
    dec n = (if n.toInt < 0 then [0x2D] else []) ++ decDigits 10 n.toInt.natAbs := by
  unfold dec
  split <;> rfl

/-- Ten digits reach the magnitude of every `int32`. -/
theorem natAbs_toInt_lt (n : BitVec 32) : n.toInt.natAbs < 10 ^ 10 := by
  have hlow := BitVec.le_toInt n
  have hhigh := BitVec.toInt_lt (x := n)
  omega

theorem dec_ne_nil (n : BitVec 32) : dec n ≠ [] := by
  rw [dec_eq_append]
  exact List.append_ne_nil_of_right_ne_nil _ (decDigits_ne_nil 9 _)

/-- Settles O37: after the sign stand the at most ten digits of the magnitude. -/
theorem decimalText : Obligations.DecimalText := by
  intro n
  have hreach := natAbs_toInt_lt n
  refine ⟨decDigits 10 n.toInt.natAbs, dec_eq_append n, digitsValue_decDigits hreach, fun b hb => ?_,
    decDigits_eq_zero_of_head? hreach, List.length_pos_of_ne_nil (decDigits_ne_nil 9 _), ?_⟩
  · obtain ⟨d, hd, rfl⟩ := exists_digit_of_mem_decDigits hb
    rw [toNat_digitByte hd]
    omega
  · have hsign : (if n.toInt < 0 then [(0x2D : Byte)] else []).length ≤ 1 := by split <;> simp
    have hdigits := length_decDigits_le 10 n.toInt.natAbs
    rw [dec_eq_append, List.length_append]
    omega

/-- Settles O23: PUTNUM runs PUTSTR's loop on `dec n`, which is never empty, so its last transfer is a digit, sent as
data. -/
theorem putNumber : Obligations.PutNumber := fun _ col row n hidle =>
  ⟨assembleWord_col_row 0xE col row, rfl, sendsTransfers_of_transfersOf hidle rfl (textTransfers_ne_nil _ _ _ _),
    rs_getLastD_textTransfers _ col row (dec_ne_nil n)⟩

/-! ### Addresses and placement (43_layout.md R83, R84, R87) -/

/-- Settles O33: each row's base added to the column, and the listed sums computed. -/
theorem cursorAddresses : Obligations.CursorAddresses :=
  ⟨fun _ => ⟨rfl, rfl, rfl, rfl⟩, by decide⟩

/-- A string started on row 0 wraps after column 15. -/
theorem wrapIndex_of_le {col : Byte} (h : col.toNat ≤ 15) : wrapIndex col = 16 - col.toNat := by
  simp only [wrapIndex, Config.cols]
  omega

/-- A string started past column 15 has one character before the wrap. -/
theorem wrapIndex_of_ge {col : Byte} (h : 16 ≤ col.toNat) : wrapIndex col = 1 := by
  simp only [wrapIndex, Config.cols]
  omega

theorem place_before_wrap (mode : WrapOtherRows) {k : Nat} {col : Byte} (h : k < wrapIndex col) :
    place mode k col 0 = (col.toNat + k, 0) :=
  (if_pos rfl).trans (if_pos h)

theorem place_after_wrap (mode : WrapOtherRows) {k : Nat} {col : Byte} (h : wrapIndex col ≤ k) :
    place mode k col 0 = (k - wrapIndex col, 1) :=
  (if_pos rfl).trans (if_neg (Nat.not_lt.2 h))

/-- Character 0 goes where the string starts. -/
theorem place_zero (mode : WrapOtherRows) (col : Byte) (row : Row) : place mode 0 col row = (col.toNat, row) := by
  by_cases hrow : row = 0
  · subst hrow
    exact place_before_wrap mode (Nat.le_max_left 1 _)
  · exact (if_neg hrow).trans (if_pos rfl)

theorem place_row0Literal {k : Nat} {row : Row} (col : Byte) (hrow : row ≠ 0) (hk : k ≠ 0) :
    place .row0Literal k col row = (col.toNat + k, 0) :=
  (if_neg hrow).trans (if_neg hk)

theorem place_sameRow {k : Nat} {row : Row} (col : Byte) (hrow : row ≠ 0) (hk : k ≠ 0) :
    place .sameRow k col row = (col.toNat + k, row) :=
  (if_neg hrow).trans (if_neg hk)

/-- Settles O34: on row 0 by the side of the wrap that `k` is on, on the other rows by the parameter. -/
theorem placement : Obligations.Placement := by
  refine fun k col row mode => ⟨fun hcol hk => ?_, fun hcol hk => ?_, fun _ => place_zero mode col 0, fun hcol hk => ?_,
    fun _ => place_zero mode col row, fun hrow hk => place_row0Literal col hrow (Nat.ne_of_gt hk),
    fun hrow hk => place_sameRow col hrow (Nat.ne_of_gt hk)⟩
  · exact place_before_wrap mode (by rwa [wrapIndex_of_le hcol])
  · rw [← wrapIndex_of_le hcol] at hk ⊢
    exact place_after_wrap mode hk
  · rw [← wrapIndex_of_ge hcol] at hk ⊢
    exact place_after_wrap mode hk

/-! ### The source's 17 characters (43_layout.md R90) -/

/-- The transfers of the source's text at the origin, under either reading of the rows 1 to 3. -/
theorem textTransfers_seventeen (mode : WrapOtherRows) :
    textTransfers mode 0 0 ((List.range 17).map fun k => BitVec.ofNat 8 (0x41 + k)) =
      [(0x80, 0)] ++ (List.range 16).map (fun k => (BitVec.ofNat 8 (0x41 + k), 1)) ++ [(0xC0, 0), (0x51, 1)] := by
  cases mode <;> decide

/-- Settles O36: the 19 transfers of the text, and PUTSTR's next state when their writes are granted. -/
theorem seventeenCharactersWrap : Obligations.SeventeenCharactersWrap := by
  intro s hidle hgrants
  obtain ⟨-, hsends, -⟩ := putString s 0 0 ((List.range 17).map fun k => BitVec.ofNat 8 (0x41 + k)) hidle
  rw [textTransfers_seventeen] at hsends
  exact ⟨_, _, hsends hgrants, rfl, (counts_transferEvents _ _ _ _).1, rfl, rfl⟩

end Sys2Proof.Machine

/-! ### What each request costs (70_reset_and_hazards.md R121) -/

namespace Sys2Proof.Machine

/-- A request that emitted `evs`, whatever it wrote to the block's own fields, costs what `evs` counts. -/
theorem costs_of_afterEvents {i : Instr} {s s0 : State} {evs : List Event} {reply : Response} {w r d ms : Nat}
    (hexec : exec i s = .next (s0.afterEvents evs reply)) (htrace : s0.trace = s.trace)
    (hreplies : s0.replies = s.replies)
    (hcounts : writeCount evs = w ∧ readCount evs = r ∧ delayCount evs = d ∧ delaySum evs = ms) :
    Costs i s reply.code w r d ms :=
  ⟨_, evs, reply, hexec, congrArg (· ++ [reply]) hreplies, rfl, congrArg (· ++ evs) htrace, hcounts⟩

/-! #### The requests made of byte transfers -/

/-- Each byte transfer costs six writes, each with its pause. -/
theorem costs_of_transfersOf {i : Instr} {s : State} {l : List (Byte × Bit)} (hidle : s.seq = .idle)
    (hl : transfersOf s.params.wrapOtherRows i = some l) (hne : l ≠ []) (hgrants : s.grants (6 * l.length)) :
    Costs i s .ok (6 * l.length) 0 (6 * l.length) (6 * l.length * s.params.tWrite.toNat) := by
  obtain ⟨hsends, -⟩ := sendsTransfers_of_transfersOf hidle hl hne
  exact costs_of_afterEvents (hsends hgrants) rfl rfl (counts_transferEvents _ _ _ _)

/-- A text of `L` characters with `P` positioning commands costs `6 * (L + P)` writes (43_layout.md R89). -/
theorem costs_of_textTransfers {i : Instr} {s : State} (col : Byte) (row : Row) (text : List Byte) {n : Nat}
    (hidle : s.seq = .idle)
    (hl : transfersOf s.params.wrapOtherRows i = some (textTransfers s.params.wrapOtherRows col row text))
    (hn : n = 6 * (text.length + positionings s.params.wrapOtherRows col row text.length)) (hgrants : s.grants n) :
    Costs i s .ok n 0 n (n * s.params.tWrite.toNat) := by
  rw [← length_textTransfers] at hn
  subst hn
  exact costs_of_transfersOf hidle hl (textTransfers_ne_nil _ _ _ _) hgrants

/-- The requests that are one byte transfer (30_encoding.md R58). -/
theorem transfersOf_eq_singleton (mode : WrapOtherRows) {i : Instr}
    (h : (∃ b, i = .wcmd b) ∨ (∃ b, i = .wdat b) ∨ i = .clear ∨ (∃ f, i = .bkl f) ∨ (∃ f, i = .vis f) ∨
      i = .shl ∨ i = .shr ∨ ∃ col row, i = .setcur col row) :
    ∃ x, transfersOf mode i = some [x] := by
  obtain ⟨b, rfl⟩ | ⟨b, rfl⟩ | rfl | ⟨f, rfl⟩ | ⟨f, rfl⟩ | rfl | rfl | ⟨col, row, rfl⟩ := h
  all_goals exact ⟨_, rfl⟩

/-! #### INIT -/

/-- A raw nibble is one strobe and the gap of 5 ms after it. -/
theorem counts_rawNibbleEvents (a : DevAddr) (t : Ms) (bl : Bit) (n : Byte) :
    writeCount (rawNibbleEvents a t bl n) = 3 ∧ readCount (rawNibbleEvents a t bl n) = 0 ∧
      delayCount (rawNibbleEvents a t bl n) = 4 ∧ delaySum (rawNibbleEvents a t bl n) = 3 * t.toNat + 5 := by
  refine ⟨rfl, rfl, rfl, ?_⟩
  simp only [rawNibbleEvents, strobeEvents, List.cons_append, List.nil_append, delaySum, BitVec.reduceToNat]
  omega

theorem counts_replicate_rawNibbleEvents (a : DevAddr) (t : Ms) (bl : Bit) (n : Byte) (count : Nat) :
    writeCount (List.replicate count (rawNibbleEvents a t bl n)).flatten = 3 * count ∧
      readCount (List.replicate count (rawNibbleEvents a t bl n)).flatten = 0 ∧
      delayCount (List.replicate count (rawNibbleEvents a t bl n)).flatten = 4 * count ∧
      delaySum (List.replicate count (rawNibbleEvents a t bl n)).flatten = 3 * count * t.toNat + 5 * count := by
  obtain ⟨hwrites, hreads, hdelays, hsum⟩ := counts_rawNibbleEvents a t bl n
  induction count with
  | zero => exact ⟨rfl, rfl, rfl, by simp [delaySum]⟩
  | succ count ih =>
    obtain ⟨ihWrites, ihReads, ihDelays, ihSum⟩ := ih
    rw [List.replicate_succ, List.flatten_cons, writeCount_append, readCount_append, delayCount_append, delaySum_append,
      hwrites, hreads, hdelays, hsum, ihWrites, ihReads, ihDelays, ihSum]
    exact ⟨by omega, rfl, by omega, by ring⟩

/-- INIT sends `count + 1` raw nibbles and four commands (41_lcd_ops.md R68). -/
theorem counts_initEvents (a : DevAddr) (t : Ms) (bl : Bit) (count : Nat) :
    writeCount (initEvents a t bl count) = 3 * (count + 1) + 24 ∧ readCount (initEvents a t bl count) = 0 ∧
      delayCount (initEvents a t bl count) = 4 * (count + 1) + 24 ∧
      delaySum (initEvents a t bl count) = (3 * (count + 1) + 24) * t.toNat + 5 * (count + 1) := by
  obtain ⟨threeWrites, threeReads, threeDelays, threeSum⟩ := counts_replicate_rawNibbleEvents a t bl 0x30 count
  obtain ⟨twoWrites, twoReads, twoDelays, twoSum⟩ := counts_rawNibbleEvents a t bl 0x20
  obtain ⟨cmdWrites, cmdReads, cmdDelays, cmdSum⟩ :=
    counts_transferEvents a t bl [(0x28, 0), (0x0C, 0), (0x06, 0), (0x01, 0)]
  simp only [initEvents, writeCount_append, readCount_append, delayCount_append, delaySum_append, threeWrites, threeReads,
    threeDelays, threeSum, twoWrites, twoReads, twoDelays, twoSum, cmdWrites, cmdReads, cmdDelays, cmdSum]
  exact ⟨rfl, trivial, rfl, by simp only [List.length_cons, List.length_nil]; ring⟩

/-- INIT for either value of `N_PRE3`. -/
theorem costs_init {s : State} (a : DevAddr) {count : Nat} (hcount : preambleCount s.params.nPre3 = count)
    (hidle : s.seq = .idle) (hgrants : s.grants (3 * (count + 1) + 24)) :
    Costs (.init a) s .ok (3 * (count + 1) + 24) 0 (4 * (count + 1) + 24)
      ((3 * (count + 1) + 24) * s.params.tWrite.toNat + 5 * (count + 1)) := by
  subst hcount
  exact costs_of_afterEvents (exec_init_ok a hidle hgrants) rfl rfl (counts_initEvents _ _ _ _)

/-! #### The probers -/

/-- Each candidate costs two writes and two reads, and no delay (42_address.md R78). -/
theorem counts_probeEvents (s : State) (n : Nat) :
    writeCount (s.probeEvents n) = 2 * n ∧ readCount (s.probeEvents n) = 2 * n ∧ delayCount (s.probeEvents n) = 0 ∧
      delaySum (s.probeEvents n) = 0 := by
  induction n with
  | zero => exact ⟨rfl, rfl, rfl, rfl⟩
  | succ n ih =>
    obtain ⟨ihWrites, ihReads, ihDelays, ihSum⟩ := ih
    rw [State.probeEvents_succ, writeCount_append, readCount_append, delayCount_append, delaySum_append, ihWrites, ihReads,
      ihDelays, ihSum]
    exact ⟨rfl, rfl, rfl, rfl⟩

/-- The response to a probe that went through, by what it found (42_address.md R80, R81). -/
def probeReply : Option DevAddr → Response
  | some a => okReply (a.setWidth 8)
  | none => notFoundReply

/-- PROBE when the probe goes through: the response says what was found, and no field of the block is written
(42_address.md R80). -/
theorem exec_probe_of_probeBus {s : State} {found : Option DevAddr} {evs : List Event} (hidle : s.seq = .idle)
    (hprobe : probeBus s.accept = .ok found (s.accept.advance evs)) :
    exec .probe s = .next (s.afterEvents evs (probeReply found)) := by
  rw [exec, execProbe, request_of_idle hidle, Op.bind_ok hprobe]
  cases found <;> exact congrArg _ (respond_of_accept hidle s.rs evs _)

/-- AUTODET when the probe goes through: as PROBE, and the address found is written (42_address.md R81). -/
theorem exec_autodet_of_probeBus {s : State} {found : Option DevAddr} {evs : List Event} (hidle : s.seq = .idle)
    (hprobe : probeBus s.accept = .ok found (s.accept.advance evs)) :
    exec .autodet s = .next ({ s with addr := found.getD s.addr }.afterEvents evs (probeReply found)) := by
  rw [exec, execAutodet, request_of_idle hidle, Op.bind_ok hprobe]
  cases found with
  | none => exact congrArg _ (respond_of_accept hidle s.rs evs _)
  | some a => exact congrArg _ (respond_of_accept (s := s.setAddr a) hidle s.rs evs _)

/-- A prober whose probe goes through costs what the candidates it has tried cost. -/
theorem costs_of_probeBus {i : Instr} {s : State} {found : Option DevAddr} {n : Nat} (hidle : s.seq = .idle)
    (hi : isProber i = true) (hprobe : probeBus s.accept = .ok found (s.accept.advance (s.probeEvents n))) :
    Costs i s (probeReply found).code (2 * n) (2 * n) 0 0 := by
  cases i with
  | probe => exact costs_of_afterEvents (exec_probe_of_probeBus hidle hprobe) rfl rfl (counts_probeEvents s n)
  | autodet => exact costs_of_afterEvents (exec_autodet_of_probeBus hidle hprobe) rfl rfl (counts_probeEvents s n)
  | _ => cases hi

/-- Settles O46, row by row: by the transfers of the request, by INIT's trace for the two values of `N_PRE3`, by the
candidates a probe has tried, and by the two answers that emit nothing. -/
theorem eventCounts : Obligations.EventCounts := by
  refine ⟨fun s i hidle hgrants hone => ?_, fun s a hidle => ⟨fun htwo hgrants => ?_, fun hthree hgrants => ?_⟩,
    fun s col row text hidle hgrants => costs_of_textTransfers col row text hidle rfl rfl hgrants,
    fun s col row x hidle hgrants => costs_of_textTransfers col row (dec x) hidle rfl rfl hgrants,
    fun s i n hidle hi hpos hle hgrants hbefore haccepts => ?_, fun s i hidle hi hgrants hnone => ?_, fun s a hidle => ?_,
    fun s q rest hidle hport hdec => ⟨_, step_of_decode_none hidle hport hdec, rfl⟩⟩
  · obtain ⟨x, hx⟩ := transfersOf_eq_singleton s.params.wrapOtherRows hone
    exact costs_of_transfersOf hidle hx (List.cons_ne_nil x []) hgrants
  · exact costs_init a (count := 2) (congrArg preambleCount htwo) hidle hgrants
  · exact costs_init a (count := 3) (congrArg preambleCount hthree) hidle hgrants
  · obtain ⟨k, rfl⟩ : ∃ k, n = k + 1 := ⟨n - 1, by omega⟩
    have hprobe := probeBus_found (s := s.accept) (by omega) hgrants (fun j hj => hbefore j (by omega)) haccepts
    exact costs_of_probeBus hidle hi hprobe
  · have hprobe := probeBus_notFound (s := s.accept) hgrants hnone
    exact costs_of_probeBus hidle hi hprobe
  · exact ⟨_, [], okReply 0, exec_setaddr a hidle, rfl, rfl, (List.append_nil _).symm, rfl, rfl, rfl, rfl⟩

end Sys2Proof.Machine

/-! ### Decoding and encoding are inverse (30_encoding.md R46, R47, R50, R57) -/

namespace Sys2Proof

/-- The operands and the payload of a legal request, read back from its own word and payload (30_encoding.md R47, R48). -/
theorem operandsOf_encodeWord {i : Instr} (h : i.wf = true) :
    operandsOf i.mnemonic (encodeWord i) i.payload = some i := by
  have hA : fieldA (encodeWord i) = i.operandA := fieldA_assembleWord _ _ _
  have hB : fieldB (encodeWord i) = i.operandB := fieldB_assembleWord _ _ _
  cases i with
  | putstr col row text =>
    have hlegal : (Payload.text text).legalText = some text := legalText_eq_some.2 ⟨rfl, of_decide_eq_true h⟩
    simp [Instr.mnemonic, operandsOf, Instr.payload, hlegal, hA, rowOperand, hB, Instr.operandA, Instr.operandB]
  | _ =>
    simp [Instr.mnemonic, operandsOf, Instr.payload, Payload.int32, addrOperand, flagOperand, rowOperand, hA, hB,
      Instr.operandA, Instr.operandB]

/-- Settles O1: the word of a legal request passes each check of the decoder, and its operands are read back. -/
theorem decodeOfEncode : Obligations.DecodeOfEncode := fun i hwf =>
  decode_eq_some_iff.2 ⟨i.mnemonic, by simp [encode, encodeWord], by simp [encode, encodeWord],
    Laws.EncodingRow.zerosHold_encodeWord i, operandsOf_encodeWord hwf⟩

/-- Where the must-be-zero bits are zero, the operands are all there is in `A` and `B` (30_encoding.md R47, R48). -/
theorem operands_of_operandsOf {m : Mnemonic} {w : RequestWord} {p : Payload} {i : Instr}
    (hzeros : m.format.zerosHold w = true) (h : operandsOf m w p = some i) :
    i.operandA = fieldA w ∧ i.operandB = fieldB w := by
  cases m
  case putstr =>
    obtain ⟨t, -, rfl⟩ := Option.map_eq_some_iff.1 h
    exact ⟨rfl, row_of_byte (eq_of_beq hzeros)⟩
  case putnum =>
    obtain ⟨n, -, rfl⟩ := Option.map_eq_some_iff.1 h
    exact ⟨rfl, row_of_byte (eq_of_beq hzeros)⟩
  all_goals obtain rfl := Option.some.inj h
  case setcur => exact ⟨rfl, row_of_byte (eq_of_beq hzeros)⟩
  case wcmd | wdat => exact ⟨(eq_of_beq hzeros).symm, rfl⟩
  case init | setaddr =>
    obtain ⟨hA, hB⟩ := Bool.and_eq_true_iff.1 hzeros
    exact ⟨addr_of_byte (eq_of_beq hA), (eq_of_beq hB).symm⟩
  case bkl | vis =>
    obtain ⟨hA, hB⟩ := Bool.and_eq_true_iff.1 hzeros
    exact ⟨(eq_of_beq hA).symm, flag_of_byte (eq_of_beq hB)⟩
  all_goals
    obtain ⟨hA, hB⟩ := Bool.and_eq_true_iff.1 hzeros
    exact ⟨(eq_of_beq hA).symm, (eq_of_beq hB).symm⟩

theorem Payload.eq_empty_of_kind {p : Payload} (h : p.kind = .empty) : p = .empty := by
  cases p with
  | empty => rfl
  | text t => cases h
  | number n => cases h

/-- A payload of the operation's kind is the payload of the request read from it, which is well formed
(30_encoding.md R46, R50). -/
theorem payload_of_operandsOf {m : Mnemonic} {w : RequestWord} {p : Payload} {i : Instr}
    (hkind : p.kind = m.format.payloadKind) (h : operandsOf m w p = some i) : i.payload = p ∧ i.wf = true := by
  cases m
  case putstr =>
    obtain ⟨t, ht, rfl⟩ := Option.map_eq_some_iff.1 h
    obtain ⟨rfl, hlen⟩ := legalText_eq_some.1 ht
    exact ⟨rfl, decide_eq_true hlen⟩
  case putnum =>
    obtain ⟨n, hn, rfl⟩ := Option.map_eq_some_iff.1 h
    exact ⟨(int32_eq_some.1 hn).symm, rfl⟩
  all_goals
    obtain rfl := Option.some.inj h
    exact ⟨(Payload.eq_empty_of_kind hkind).symm, rfl⟩

/-- Settles O2: the fields of the word and the payload are the request's own, field by field. -/
theorem encodeOfDecode : Obligations.EncodeOfDecode := by
  intro q i hdec
  obtain ⟨m, hop, hrsvd, hzeros, hi⟩ := decode_eq_some_iff.1 hdec
  obtain ⟨hA, hB⟩ := operands_of_operandsOf hzeros hi
  obtain ⟨hpayload, hwf⟩ := payload_of_operandsOf (q.typed.trans (payloadKind_of_mnemonicOf hop)) hi
  have hword : encodeWord i = q.word := by
    rw [encodeWord, mnemonic_of_operandsOf hi, opcode_of_mnemonicOf hop, hA, hB, assembleWord_fields hrsvd]
  exact ⟨Request.ext hword hpayload, hwf⟩

/-- Settles O5: each word evaluates to its request. -/
theorem writtenWordsDecode : Obligations.WrittenWordsDecode := by
  unfold Obligations.WrittenWordsDecode
  decide

end Sys2Proof

/-! ### The port and the step (10_state.md R22; 20_memory.md R40; 60_exceptions.md R93, R96) -/

namespace Sys2Proof.Machine

/-- Settles O6: the step's branch for a request that decodes. -/
theorem stepRunsTheDecodedRequest : Obligations.StepRunsTheDecodedRequest := by
  intro s q rest i hidle hport hdec
  have hnext : s.nextRequest = some (q, rest) := by rw [State.nextRequest, hidle, hport]
  simp only [step, hnext, hdec]
  rfl

theorem step_of_nextRequest_none {s : State} (h : s.nextRequest = none) : step s = .next s := by
  rw [step, h]

/-- Only an idle block has a next request, and it is the oldest at its port (10_state.md R22). -/
theorem nextRequest_eq_some {s : State} {q : Request} {rest : List Request} (h : s.nextRequest = some (q, rest)) :
    s.seq = .idle ∧ s.port = q :: rest := by
  unfold State.nextRequest at h
  split at h
  next hidle hport =>
    obtain ⟨rfl, rfl⟩ := Prod.mk.inj (Option.some.inj h)
    exact ⟨hidle, hport⟩
  all_goals cases h

/-- No request runs on a block that is not idle (60_exceptions.md R105). -/
theorem exec_busy (i : Instr) {s : State} (hbusy : s.seq = .busy) : exec i s = .refused .interleaved := by
  have refuses : ∀ x : Op (Code × Byte), request x s = .refused .interleaved := fun x => by rw [request, hbusy]
  cases i <;> exact refuses _

/-- Settles O7: in both cases there is no next request; and no request runs while the block is busy. -/
theorem busyOrEmptyPortAcceptsNothing : Obligations.BusyOrEmptyPortAcceptsNothing := by
  refine ⟨fun s hbusy => step_of_nextRequest_none ?_, fun i s hbusy => exec_busy i hbusy,
    fun s hidle hport => step_of_nextRequest_none ?_⟩
  · rw [State.nextRequest, hbusy]
  · rw [State.nextRequest, hidle, hport]

/-- What a step can be: nothing to accept, a legal request run, or an illegal one answered. -/
theorem step_cases {s t : State} (h : step s = .next t) :
    t = s ∨ ∃ q rest, s.nextRequest = some (q, rest) ∧
      ((∃ i, decode q = some i ∧ exec i (s.withPort rest) = .next t) ∨
       (decode q = none ∧ t = (s.withPort rest).rejectIllegal)) := by
  unfold step at h
  split at h
  next => exact .inl (Host.Outcome.next.inj h).symm
  next q rest hnext =>
    split at h
    next i hdec => exact .inr ⟨q, rest, hnext, .inl ⟨i, hdec, h⟩⟩
    next hdec => exact .inr ⟨q, rest, hnext, .inr ⟨hdec, (Host.Outcome.next.inj h).symm⟩⟩

/-- Settles O10: with no next request the step stutters, a legal request run from IDLE ends, and an illegal one is
answered. -/
theorem everyStepHasANextState : Obligations.EveryStepHasANextState := by
  intro s
  cases hnext : s.nextRequest with
  | none => exact ⟨s, step_of_nextRequest_none hnext⟩
  | some head =>
    obtain ⟨q, rest⟩ := head
    obtain ⟨hidle, hport⟩ := nextRequest_eq_some hnext
    cases hdec : decode q with
    | none => exact ⟨_, step_of_decode_none hidle hport hdec⟩
    | some i =>
      rw [stepRunsTheDecodedRequest s q rest i hidle hport hdec]
      exact exec_idle i hidle

/-! ### What every request that answers has done (60_exceptions.md R93, R94, R99) -/

/-- Between `s` and `t` the request `i` emitted `evs` and was answered `r`: `exec_inv`, read field by field. Where `r`
carries an error, the last event is the call that failed. -/
structure Answered (i : Instr) (s t : State) (evs : List Event) (r : Response) : Prop where
  trace : t.trace = s.trace ++ evs
  bus : t.bus = s.bus.drop (callCount evs)
  replies : t.replies = s.replies ++ [r]
  seq : t.seq = .idle
  port : t.port = s.port
  params : t.params = s.params
  bl : t.bl = backlightDuring i s.bl
  seqBroken : t.seqBroken = (s.seqBroken || r.err.isSome)
  reply : ∀ e, r.err = some e → r = errorReply e
  code : r.err = none → r.code ≠ .transportError
  events : ∀ e ∈ evs, EventOf i (beforeEvents i s).addr t.bl s.params e
  oks : ∀ j, j < callCount evs → (r.err.isSome = true → j + 1 < callCount evs) → j < s.bus.length →
    ∃ d, s.bus[j]? = some (.ok d)
  stop : ∀ e, r.err = some e → ∃ pre x, evs = pre ++ [x] ∧ isCall x = true ∧
    (callCount evs ≤ s.bus.length → s.bus[callCount evs - 1]? = some (.err e))

@[simp] theorem beforeEvents_bl (i : Instr) (s : State) : (beforeEvents i s).bl = backlightDuring i s.bl := by
  cases i <;> rfl

/-- A path that ends in a state which keeps `u` but for `ADDR`, `SEQ_BROKEN`, `SEQ` and the response. -/
theorem Answered.of_path {i : Instr} {s t u : State} {evs : List Event} {r : Response}
    (path : Path (beforeEvents i s) u evs r.err)
    (events : ∀ e ∈ evs, EventOf i (beforeEvents i s).addr (beforeEvents i s).bl s.params e)
    (ended : t = { u with addr := t.addr, seqBroken := u.seqBroken || r.err.isSome, seq := .idle,
                          replies := u.replies ++ [r] })
    (reply : ∀ e, r.err = some e → r = errorReply e) (code : r.err = none → r.code ≠ .transportError) :
    Answered i s t evs r := by
  have hbl : t.bl = (beforeEvents i s).bl := by rw [ended]; exact path.bl
  constructor
  case trace => rw [ended, ← beforeEvents_trace i s]; exact path.trace
  case bus => rw [ended, ← beforeEvents_bus i s]; exact path.bus
  case replies => rw [ended, ← beforeEvents_replies i s, ← path.replies]
  case seq => rw [ended]
  case port => rw [ended, ← beforeEvents_port i s]; exact path.port
  case params => rw [ended, ← beforeEvents_params i s]; exact path.params
  case bl => rw [hbl, beforeEvents_bl]
  case seqBroken => rw [ended, ← beforeEvents_seqBroken i s, ← path.seqBroken]
  case reply => exact reply
  case code => exact code
  case events => rwa [hbl]
  case oks => simpa using path.oks
  case stop => simpa using path.stop

/-- A request that answers a next state has done what `Answered` says. -/
theorem exec_answered {i : Instr} {s t : State} (h : exec i s = .next t) : ∃ evs r, Answered i s t evs r := by
  obtain ⟨-, evs, u, events, ⟨code, value, path, hcode, ended⟩ | ⟨e, path, rfl⟩⟩ := exec_inv h
  · refine ⟨evs, ⟨code, value, none⟩, .of_path path events ?_ (fun e he => by cases he) fun _ => hcode⟩
    obtain ⟨rfl, -⟩ | ⟨a, -, -, -, rfl⟩ := ended <;> simp [State.respond, State.setAddr]
  · refine ⟨evs, errorReply e, .of_path path events ?_ (fun e' he => by cases he; rfl) fun he => by cases he⟩
    simp [State.raiseTransportError, State.breakSequence, State.respond, errorReply]

/-- The response is TRANSPORT_ERROR exactly where it carries an error (60_exceptions.md R93). -/
theorem Answered.isSome_err {i : Instr} {s t : State} {evs : List Event} {r : Response} (h : Answered i s t evs r) :
    r.err.isSome = decide (r.code = .transportError) := by
  cases herr : r.err with
  | none => simp [h.code herr]
  | some e => simp [h.reply e herr, errorReply]

/-- Settles O8: every request from IDLE answers, and what `Answered` says of the next state. -/
theorem everyRequestEndsWithOneResponse : Obligations.EveryRequestEndsWithOneResponse := by
  intro i s hidle
  obtain ⟨t, ht⟩ := exec_idle i hidle
  obtain ⟨evs, r, h⟩ := exec_answered ht
  exact ⟨t, r, evs, ht, h.seq, h.replies, h.port, h.params, h.trace⟩

/-- Settles O41: nothing writes `BL` after BKL's own write, which comes before its first event. -/
theorem onlyBklWritesTheBacklight : Obligations.OnlyBklWritesTheBacklight := by
  intro i s t ht
  obtain ⟨evs, r, h⟩ := exec_answered ht
  exact h.bl

/-- Settles O42: `SEQ_BROKEN` is set along with a response that carries an error, and only there. -/
theorem sequenceBrokenIsSticky : Obligations.SequenceBrokenIsSticky := by
  intro i s t ht
  obtain ⟨evs, r, h⟩ := exec_answered ht
  refine ⟨r, h.replies, ?_⟩
  rw [h.seqBroken, h.isSome_err]
  simp

/-- Settles O45: the answers used were `ok` up to the last call, and that one failed exactly where the response says so. -/
theorem transportErrorsArePrecise : Obligations.TransportErrorsArePrecise := by
  intro i s t ht
  obtain ⟨evs, r, h⟩ := exec_answered ht
  refine ⟨evs, r, h.trace, h.replies, h.bus, fun j hj hlen => h.oks j (by omega) (fun _ => hj) hlen, fun hcode => ?_,
    fun hcode => ?_⟩
  · obtain ⟨e, he⟩ : ∃ e, r.err = some e := Option.isSome_iff_exists.1 (by rw [h.isSome_err, hcode]; rfl)
    obtain ⟨pre, x, hevs, hcall, hfailed⟩ := h.stop e he
    exact ⟨pre, x, e, hevs, hcall, h.reply e he, hfailed⟩
  · have hnone : r.err.isSome = false := by rw [h.isSome_err]; exact decide_eq_false hcode
    exact ⟨Option.isNone_iff_eq_none.1 (Option.isSome_eq_false_iff.1 hnone),
      fun j hj hlen => h.oks j hj (by simp [hnone]) hlen⟩

/-- Settles O39: the events of a request that is no probe are strobes and pauses, emitted under the `ADDR` and the `BL`
that it leaves. -/
theorem everyStrobeByteCarriesTheBacklight : Obligations.EveryStrobeByteCarriesTheBacklight := by
  intro i s t hi ht
  obtain ⟨evs, r, h⟩ := exec_answered ht
  have haddr : t.addr = (beforeEvents i s).addr := exec_addr_of_ne_autodet ht (by rintro rfl; cases hi)
  refine ⟨evs, h.trace, fun x hx => ?_⟩
  have hstrobe : StrobeEvent t.addr t.bl s.params x := by simpa [EventOf, hi, haddr] using h.events x hx
  obtain hwrite | hpause | hgap := hstrobe
  · exact .inl hwrite
  · exact .inr ⟨_, hpause⟩
  · exact .inr ⟨_, hgap⟩

/-! ### The two invariants (10_state.md R19, R21; 30_encoding.md R53; 42_address.md R77) -/

/-- Settles O48: a step adds no response, or the response of an illegal request, or that of a request it has run, which
sets `SEQ_BROKEN` exactly where it is TRANSPORT_ERROR. -/
theorem stepKeepsBrokenRecorded : Obligations.StepKeepsBrokenRecorded := by
  intro s t hs hstep
  unfold State.BrokenRecorded at hs ⊢
  obtain rfl | ⟨q, rest, -, ⟨i, -, ht⟩ | ⟨-, rfl⟩⟩ := step_cases hstep
  · exact hs
  · obtain ⟨evs, r, h⟩ := exec_answered ht
    simp [h.seqBroken, h.replies, h.isSome_err, hs]
  · simp [hs]

/-- Every event a request emits is one the block can emit. -/
theorem eventAllowed_of_eventOf {i : Instr} {a : DevAddr} {bl : Bit} {p : Params} {e : Event} (h : EventOf i a bl p e) :
    eventAllowed p e := by
  have bitOne : ∀ v : Byte, v.extractLsb' 1 1 = 0 → v.getLsbD 1 = false := by decide
  unfold EventOf at h
  split at h
  · obtain ⟨c, hc, rfl | rfl | ⟨r, rfl⟩⟩ := h
    · exact .inr ⟨hc, rfl⟩
    · exact .inl rfl
    · exact hc
  · obtain ⟨v, rfl, -, hv⟩ | rfl | rfl := h
    · exact .inl (bitOne v hv)
    · exact .inl rfl
    · exact .inr rfl

/-- Settles O49: the events a step adds are those of a request it has run. -/
theorem stepKeepsTraceAllowed : Obligations.StepKeepsTraceAllowed := by
  intro s t hs hstep
  unfold State.TraceAllowed at hs ⊢
  obtain rfl | ⟨q, rest, -, ⟨i, -, ht⟩ | ⟨-, rfl⟩⟩ := step_cases hstep
  · exact hs
  · obtain ⟨evs, r, h⟩ := exec_answered ht
    rw [h.trace, h.params]
    exact fun e he => (List.mem_append.1 he).elim (hs e) fun hnew => eventAllowed_of_eventOf (h.events e hnew)
  · exact hs

/-- Settles O50: a block just powered on has answered nothing and emitted nothing. -/
theorem resetMeetsTheInvariants : Obligations.ResetMeetsTheInvariants := by
  have poweredOn : ∀ p : Params, (State.powerOn p).BrokenRecorded ∧ (State.powerOn p).TraceAllowed :=
    fun p => ⟨rfl, fun e he => absurd he List.not_mem_nil⟩
  exact ⟨(poweredOn _).1, (poweredOn _).2, poweredOn⟩

end Sys2Proof.Machine

/-! ### The wire byte and a byte transfer cut short (30_encoding.md R53; 40_sequencer.md R63) -/

namespace Sys2Proof.Machine

/-- A byte with bit 1 zero is the wire byte of its own four fields. -/
theorem wire_of_bitOne_zero {v : Byte} (h : v.extractLsb' 1 1 = 0) :
    wire (v.extractLsb' 4 4) (v.extractLsb' 3 1) (v.extractLsb' 2 1) (v.extractLsb' 0 1) = v := by
  revert v; decide

/-- Settles O13: the layout of the wire byte one way, its own fields the other. -/
theorem wireBytesAreThoseWithBitOneZero : Obligations.WireBytesAreThoseWithBitOneZero := by
  refine fun v => ⟨?_, fun h => ⟨_, _, _, _, wire_of_bitOne_zero h⟩⟩
  rintro ⟨n, bl, e, rs, rfl⟩
  obtain ⟨-, -, -, hzero, -⟩ := wireByteLayout n bl e rs
  exact hzero

/-- Writes and pauses alternate in a byte transfer, so its first `j + 1` writes are its first `2 j + 1` events. -/
theorem cutAfterCall_byteEvents (a : DevAddr) (t : Ms) (bl : Bit) (b : Byte) (rs : Bit) {j : Nat} (hj : j < 6) :
    cutAfterCall j (byteEvents a t bl b rs) = (byteEvents a t bl b rs).take (2 * j + 1) := by
  obtain rfl | rfl | rfl | rfl | rfl | rfl : j = 0 ∨ j = 1 ∨ j = 2 ∨ j = 3 ∨ j = 4 ∨ j = 5 := by omega
  all_goals rfl

/-- Settles O17: a byte transfer whose write number `j`, counting from 0, fails, with `j = k - 1`. -/
theorem byteTransferCutShort : Obligations.ByteTransferCutShort := by
  intro s b rs k e hpos hle hfails
  obtain ⟨j, rfl⟩ : ∃ j, k = j + 1 := ⟨k - 1, by omega⟩
  have hj : j < 6 := by omega
  have hcount : callCount (cutAfterCall j (byteEvents s.addr s.params.tWrite s.bl b rs)) = j + 1 :=
    callCount_cutAfterCall (by simpa using hj)
  rw [byteTransfer_error b rs hj hfails, State.advance, hcount, cutAfterCall_byteEvents _ _ _ _ _ hj]
  rfl

end Sys2Proof.Machine

/-! ### The probe (42_address.md R77 to R81; 70_reset_and_hazards.md R118) -/

namespace Sys2Proof.Machine

/-- Settles O28: the probe's answer and its events, put into the two requests' next states. -/
theorem probeFindsTheFirstAcceptingCandidate : Obligations.ProbeFindsTheFirstAcceptingCandidate := by
  intro s i hidle hi hgrants hbefore haccepts
  have hprobe := probeBus_found (s := s.accept) hi hgrants hbefore haccepts
  exact ⟨exec_probe_of_probeBus hidle hprobe, exec_autodet_of_probeBus hidle hprobe⟩

@[simp] theorem State.length_candidateEvents (s : State) (i : Nat) : (s.candidateEvents i).length = 4 := rfl

@[simp] theorem State.length_probeEvents (s : State) (n : Nat) : (s.probeEvents n).length = 4 * n := by
  induction n with
  | zero => rfl
  | succ n ih => rw [State.probeEvents_succ, List.length_append, ih, State.length_candidateEvents]; omega

/-- Settles O29: the probe finds none, and the two requests end alike. -/
theorem probeNotFound : Obligations.ProbeNotFound := by
  intro s hidle hgrants hnone
  have hprobe := probeBus_notFound (s := s.accept) hgrants hnone
  exact ⟨exec_probe_of_probeBus hidle hprobe, exec_autodet_of_probeBus hidle hprobe, s.length_probeEvents 16⟩

/-! #### A call that fails -/

/-- The first events of a probe: whole candidates, and then some events of the next. -/
theorem State.take_probeEvents (s : State) {i j n : Nat} (hi : i < n) (hj : j < 4) :
    (s.probeEvents n).take (4 * i + j) = s.probeEvents i ++ (s.candidateEvents i).take j := by
  have hall : i + 1 ≤ n := hi
  induction n, hall using Nat.le_induction with
  | base =>
    rw [State.probeEvents_succ, ← State.length_probeEvents s i, List.take_length_add_append]
  | succ n hn ih =>
    rw [State.probeEvents_succ, List.take_append_of_le_length (by rw [State.length_probeEvents]; omega), ih hn]

/-- The probe whose call number `k` fails, no candidate having accepted before (42_address.md R77). -/
theorem probeBus_error {s : State} {k : Nat} {e : TransportError} (hk : k < 64) (hfails : s.failsAt k e)
    (hbefore : ∀ j, 4 * (j + 1) ≤ k → ¬ s.candidateAccepts j) :
    probeBus s = .error e (s.advance ((s.probeEvents 16).take k ++ [failedProbeCall k e])) := by
  obtain ⟨i, j, hj, rfl⟩ : ∃ i j, j < 4 ∧ k = 4 * i + j := ⟨k / 4, k % 4, by omega, by omega⟩
  have hcall : failedProbeCall (4 * i + j) e =
      if j = 0 then .write (candidateAddr i) 0xFF else if j = 2 then .write (candidateAddr i) 0x00
        else .read (candidateAddr i) (.err e) := by
    rw [failedProbeCall, show (4 * i + j) % 4 = j by omega, show (4 * i + j) / 4 = i by omega]
  have hhere : (s.advance (s.probeEvents i)).failsAt j e :=
    State.failsAt_advance (by rwa [State.callCount_probeEvents])
  rw [probeBus_skip (i := i) (by omega) (State.grants_mono hfails.1 (by omega)) fun j' hj' => hbefore j' (by omega),
    candidates_drop i (by omega), probeFrom_cons_error _ _ hj hhere, State.take_probeEvents s (by omega) hj, hcall]
  simp only [State.busByte_advance, State.callCount_probeEvents, State.advance_advance, List.append_assoc]
  rfl

/-- Settles O30: the failed probe ends both requests before either has written anything. -/
theorem probeEndsAtAFailingCall : Obligations.ProbeEndsAtAFailingCall := by
  intro s k e hidle hk hfails hbefore
  have hprobe := probeBus_error (s := s.accept) hk hfails hbefore
  constructor
  · rw [exec, execProbe, request_of_idle hidle, Op.bind_error hprobe]
    exact congrArg _ (raiseTransportError_of_accept hidle s.rs _ e)
  · rw [exec, execAutodet, request_of_idle hidle, Op.bind_error hprobe]
    exact congrArg _ (raiseTransportError_of_accept hidle s.rs _ e)

/-! #### Whatever the transport answers -/

/-- The state a piece of a request ends in, gone through or not. -/
def resultState {α : Type} : EStateM.Result TransportError State α → State
  | .ok _ t => t
  | .error _ t => t

/-- A piece of a request that emits at most `n` events and changes nothing else of the state. -/
def Op.AtMost {α : Type} (n : Nat) (x : Op α) : Prop :=
  ∀ s, ∃ evs, resultState (x s) = s.advance evs ∧ evs.length ≤ n

theorem Op.atMost_pure {α : Type} (a : α) : Op.AtMost 0 (pure a : Op α) :=
  fun s => ⟨[], (State.advance_nil s).symm, Nat.le_refl 0⟩

theorem Op.AtMost.mono {α : Type} {m n : Nat} {x : Op α} (h : Op.AtMost m x) (hmn : m ≤ n) : Op.AtMost n x := by
  intro s
  obtain ⟨evs, hs, hlen⟩ := h s
  exact ⟨evs, hs, hlen.trans hmn⟩

theorem Op.AtMost.bind {α β : Type} {m n : Nat} {x : Op α} {f : α → Op β} (hx : Op.AtMost m x)
    (hf : ∀ a, Op.AtMost n (f a)) : Op.AtMost (m + n) (x >>= f) := by
  intro s
  obtain ⟨evs, hs, hlen⟩ := hx s
  rw [Op.bind_run]
  cases hxs : x s with
  | error e t =>
    rw [hxs] at hs
    exact ⟨evs, hs, by omega⟩
  | ok a t =>
    obtain ⟨more, ht, hmore⟩ := hf a t
    rw [hxs] at hs
    obtain rfl : t = s.advance evs := hs
    exact ⟨evs ++ more, by rw [ht, State.advance_advance], by rw [List.length_append]; omega⟩

theorem busCall_atMost (c : Call) : Op.AtMost 1 (busCall c) := by
  intro s
  refine ⟨[callEvent c (s.answerTo c)], ?_, Nat.le_refl 1⟩
  unfold busCall
  cases s.answerTo c <;> exact State.afterCall_eq _ _ _

/-- Each candidate takes at most its four calls (42_address.md R78). -/
theorem probeFrom_atMost (l : List DevAddr) : Op.AtMost (4 * l.length) (probeFrom l) := by
  induction l with
  | nil => exact Op.atMost_pure none
  | cons a rest ih =>
    have write : ∀ v, Op.AtMost 1 (busWrite a v) := fun v => (busCall_atMost _).bind fun _ => Op.atMost_pure ()
    have whole := (write patternOnes).bind fun _ => (busCall_atMost (.read a)).bind fun r1 =>
      (write patternZero).bind fun _ => (busCall_atMost (.read a)).bind fun r2 =>
        show Op.AtMost (4 * rest.length)
          (if signatureMatches r1 r2 then pure (some a) else probeFrom rest : Op (Option DevAddr)) by
        split
        · exact (Op.atMost_pure _).mono (Nat.zero_le _)
        · exact ih
    exact whole.mono (by simp only [List.length_cons]; omega)

/-- What a request that probes leaves in `ADDR`, when its probe has gone through (42_address.md R80, R81). -/
def addrAfterProbe (i : Instr) (a : DevAddr) (found : Option DevAddr) : DevAddr :=
  if i = .autodet then found.getD a else a

/-- The two ways a probe ends: gone through, and answered by what it found; or cut short at a failing call. -/
theorem exec_prober_cases {i : Instr} {s t : State} (hi : isProber i = true) (h : exec i s = .next t) :
    (∃ found u, probeBus s.accept = .ok found u ∧
      t = (u.setAddr (addrAfterProbe i u.addr found)).respond (probeReply found)) ∨
    ∃ e u, probeBus s.accept = .error e u ∧ t = u.raiseTransportError e := by
  cases i
  case probe | autodet =>
    obtain ⟨-, rfl⟩ := request_next h
    rw [Op.bind_run]
    cases hr : probeBus s.accept with
    | error e u => exact .inr ⟨e, u, rfl, rfl⟩
    | ok found u => exact .inl ⟨found, u, rfl, by cases found <;> rfl⟩
  all_goals cases hi

/-- The state after a probe, gone through or not, differs from the accepted one by at most 64 events. -/
theorem probeBus_state {s u : State} (h : resultState (probeBus s.accept) = u) :
    ∃ evs, u = s.accept.advance evs ∧ evs.length ≤ 64 := by
  obtain ⟨evs, hs, hlen⟩ := probeFrom_atMost candidates s.accept
  exact ⟨evs, h.symm.trans hs, hlen⟩

theorem exists_candidateAddr {a : DevAddr} (h : a ∈ candidates) : ∃ j, j < 16 ∧ a = candidateAddr j := by
  have all : ∀ a ∈ candidates, ∃ j < 16, a = candidateAddr j := by decide
  exact all a h

/-- Where a prober leaves the block: only `ADDR` can have changed, to what AUTODET found, and at most 64 events were
added. -/
theorem exec_prober_frame {i : Instr} {s t : State} (hi : isProber i = true) (h : exec i s = .next t) :
    (∃ evs, t.trace = s.trace ++ evs ∧ evs.length ≤ 64) ∧ t.rs = s.rs ∧
      (t.addr = s.addr ∨ i = .autodet ∧ t.replies = s.replies ++ [okReply (t.addr.setWidth 8)]) := by
  obtain ⟨found, u, hprobe, rfl⟩ | ⟨e, u, hprobe, rfl⟩ := exec_prober_cases hi h
  all_goals
    obtain ⟨evs, rfl, hlen⟩ := probeBus_state (congrArg resultState hprobe)
    refine ⟨⟨evs, rfl, hlen⟩, rfl, ?_⟩
  · by_cases hauto : i = .autodet
    · cases found with
      | none => exact .inl (if_pos hauto)
      | some a => exact .inr ⟨hauto, by simp [addrAfterProbe, hauto, probeReply]⟩
    · exact .inl (if_neg hauto)
  · exact .inl rfl

/-- Settles O31: the events of a request that probes are the probe's, and there are at most four for each candidate. -/
theorem probeIsBounded : Obligations.ProbeIsBounded := by
  intro i s t hi ht
  obtain ⟨⟨evs, htrace, hlen⟩, hrs, haddr⟩ := exec_prober_frame hi ht
  obtain ⟨evs', r, h⟩ := exec_answered ht
  obtain rfl : evs' = evs := List.append_cancel_left (h.trace.symm.trans htrace)
  refine ⟨⟨evs', htrace, hlen, fun x hx => ?_⟩, ?_, hrs, haddr⟩
  · have hprobe : ProbeEvent (beforeEvents i s).addr t.bl s.params x := by simpa [EventOf, hi] using h.events x hx
    obtain ⟨a, ha, hx⟩ := hprobe
    obtain ⟨j, hj, rfl⟩ := exists_candidateAddr ha
    refine ⟨j, hj, ?_⟩
    obtain rfl | rfl | ⟨r, rfl⟩ := hx
    · exact .inl ⟨_, rfl, .inl rfl⟩
    · exact .inl ⟨_, rfl, .inr rfl⟩
    · exact .inr ⟨r, rfl⟩
  · rw [h.bl]
    cases i
    case bkl f => cases hi
    all_goals rfl

/-! #### What a probe does to the lines (70_reset_and_hazards.md R118) -/

theorem candidateAddr_injective {i j : Nat} (hi : i < 16) (hj : j < 16) (h : candidateAddr i = candidateAddr j) : i = j := by
  have all : ∀ i < 16, ∀ j < 16, candidateAddr i = candidateAddr j → i = j := by decide
  exact all i hi j hj h

/-- Each candidate the probe has tried has got the two patterns, and no other candidate a byte. -/
theorem State.bytesTo_probeEvents (s : State) {j n : Nat} (hj : j < 16) (hn : n ≤ 16) :
    bytesTo (candidateAddr j) (s.probeEvents n) = if j < n then [0xFF, 0x00] else [] := by
  induction n with
  | zero => rfl
  | succ n ih =>
    rw [State.probeEvents_succ, bytesTo_append, ih (by omega)]
    by_cases hjn : j = n
    · subst hjn
      simp [State.candidateEvents, bytesTo]
    · have hne : candidateAddr n ≠ candidateAddr j := fun h => hjn (candidateAddr_injective (by omega) hj h).symm
      simp [State.candidateEvents, bytesTo, hne, show j < n + 1 ↔ j < n by omega]

/-- A probe that has got through the first `n` candidates, the `n`-th of which accepts unless it is the last. -/
theorem probeBus_through {s : State} {n : Nat} (hpos : 1 ≤ n) (hle : n ≤ 16) (hgrants : s.grants (4 * n))
    (hbefore : ∀ j, j + 1 < n → ¬ s.candidateAccepts j) (hlast : n < 16 → s.candidateAccepts (n - 1)) :
    ∃ found, probeBus s = .ok found (s.advance (s.probeEvents n)) := by
  obtain ⟨k, rfl⟩ : ∃ k, n = k + 1 := ⟨n - 1, by omega⟩
  by_cases haccepts : s.candidateAccepts k
  · exact ⟨_, probeBus_found (by omega) hgrants (fun j hj => hbefore j (by omega)) haccepts⟩
  · obtain rfl : k = 15 := by
      by_contra hk
      exact haccepts (hlast (by omega))
    refine ⟨_, probeBus_notFound hgrants fun j hj => ?_⟩
    obtain rfl | hj : j = 15 ∨ j < 15 := by omega
    · exact haccepts
    · exact hbefore j (by omega)

/-- Settles O32: the request adds the events of the first `n` candidates; the 0xFF raises E and the 0x00 lets it fall. -/
theorem probeStrobesTheDisplay : Obligations.ProbeStrobesTheDisplay := by
  intro i s n p hi hidle hpos hle hgrants hbefore hlast _
  obtain ⟨found, hprobe⟩ := probeBus_through (s := s.accept) hpos hle hgrants hbefore hlast
  have hexec : ∃ t, exec i s = .next t ∧ t.trace = s.trace ++ s.probeEvents n ∧ t.seqBroken = s.seqBroken := by
    cases i
    case probe => exact ⟨_, exec_probe_of_probeBus hidle hprobe, rfl, rfl⟩
    case autodet => exact ⟨_, exec_autodet_of_probeBus hidle hprobe, rfl, rfl⟩
    all_goals cases hi
  obtain ⟨t, ht, htrace, hbroken⟩ := hexec
  have hbytes : ∀ j, j < n → bytesTo (candidateAddr j) (s.probeEvents n) = [0xFF, 0x00] := fun j hj => by
    rw [s.bytesTo_probeEvents (by omega) hle, if_pos hj]
  have hfall : latched p [0xFF, 0x00] = [(0xF, 1)] := by simp [latched]
  refine ⟨t, _, ht, htrace, hbroken, fun j hj => ⟨hbytes j hj, by rw [hbytes j hj, hfall]⟩, fun j hnj hj => ?_⟩
  rw [s.bytesTo_probeEvents hj hle, if_neg (by omega)]

/-! ### The responses (60_exceptions.md R93) -/

/-- What the response of the request `i` may be (60_exceptions.md R93). -/
def MayReply (i : Instr) (r : Response) : Prop :=
  (r.code = .ok ∧ r.err = none ∧ isProber i = false ∧ r.value = 0) ∨
  (r.code = .ok ∧ r.err = none ∧ isProber i = true ∧ ∃ a ∈ candidates, r.value = a.setWidth 8) ∨
  (r.code = .transportError ∧ r.value = 0 ∧ r.err ≠ none ∧ ∀ a, i ≠ .setaddr a) ∨
  (r.code = .notFound ∧ r.value = 0 ∧ r.err = none ∧ isProber i = true)

theorem mayReply_errorReply {i : Instr} (e : TransportError) (hi : ∀ a, i ≠ .setaddr a) : MayReply i (errorReply e) :=
  .inr (.inr (.inl ⟨rfl, rfl, by simp [errorReply], hi⟩))

theorem mayReply_okReply {i : Instr} (hi : isProber i = false) : MayReply i (okReply 0) := .inl ⟨rfl, rfl, hi, rfl⟩

/-- The response of a prober is what it found, or the error of the failing call. -/
theorem mayReply_of_prober {i : Instr} {s t : State} (hi : isProber i = true) (h : exec i s = .next t) :
    ∃ r, t.replies = s.replies ++ [r] ∧ MayReply i r := by
  obtain ⟨found, u, hprobe, rfl⟩ | ⟨e, u, hprobe, rfl⟩ := exec_prober_cases hi h
  all_goals
    obtain ⟨evs, rfl, -⟩ := probeBus_state (congrArg resultState hprobe)
  · refine ⟨probeReply found, rfl, ?_⟩
    cases found with
    | none => exact .inr (.inr (.inr ⟨rfl, rfl, rfl, hi⟩))
    | some a => exact .inr (.inl ⟨rfl, rfl, hi, a, probeFrom_mem hprobe, rfl⟩)
  · exact ⟨errorReply e, rfl, mayReply_errorReply e (by rintro a rfl; cases hi)⟩

/-- The response of any other request is OK with value 0, or the error of the failing call, which SETADDR has none of. -/
theorem mayReply_of_not_prober {i : Instr} {s t : State} (hi : isProber i = false) (h : exec i s = .next t) :
    ∃ r, t.replies = s.replies ++ [r] ∧ MayReply i r := by
  obtain ⟨hidle, evs, u, -, ⟨code, value, path, -, ended⟩ | ⟨e, path, rfl⟩⟩ := exec_inv h
  · obtain ⟨rfl, -, hok⟩ | ⟨a, rfl, -⟩ := ended
    · obtain ⟨rfl, rfl⟩ := hok hi
      exact ⟨okReply 0, by simp [path.replies, okReply], mayReply_okReply hi⟩
    · cases hi
  · by_cases hset : ∃ a, i = .setaddr a
    · obtain ⟨a, rfl⟩ := hset
      have hnext := (exec_setaddr a hidle).symm.trans h
      exact ⟨okReply 0, congrArg State.replies (Host.Outcome.next.inj hnext).symm, mayReply_okReply rfl⟩
    · exact ⟨errorReply e, by simp [path.replies, errorReply], mayReply_errorReply e fun a ha => hset ⟨a, ha⟩⟩

/-- Settles O9: the codes are their definition; a request that probes and one that does not, each by the ways it ends; and
the step of an illegal request. -/
theorem responseTable : Obligations.ResponseTable := by
  refine ⟨rfl, rfl, rfl, rfl, fun i s t h => ?_, fun s q rest hidle hport hdec => ?_⟩
  · cases hi : isProber i with
    | true => simpa only [MayReply, hi] using mayReply_of_prober hi h
    | false => simpa only [MayReply, hi] using mayReply_of_not_prober hi h
  · exact ⟨_, step_of_decode_none hidle hport hdec, rfl⟩

end Sys2Proof.Machine

/-! ### What no request observes: `SEQ_BROKEN`, and `RS` between requests (10_state.md R18, R21) -/

namespace Sys2Proof.Machine

/-- Other values put into the two fields that decide no event and no response. -/
def State.disguise (g : Bit → Bit) (h : Bool → Bool) (s : State) : State :=
  { s with rs := g s.rs, seqBroken := h s.seqBroken }

/-- The same result, in a disguised state. -/
def disguiseResult {α : Type} (g : Bit → Bit) (h : Bool → Bool) :
    EStateM.Result TransportError State α → EStateM.Result TransportError State α
  | .ok a t => .ok a (t.disguise g h)
  | .error e t => .error e (t.disguise g h)

/-- A piece of a request that does the same from a disguised state, and leaves the disguise on. -/
def Op.Ignores {α : Type} (g : Bit → Bit) (h : Bool → Bool) (x : Op α) : Prop :=
  ∀ s : State, x (s.disguise g h) = disguiseResult g h (x s)

section

variable {g : Bit → Bit} {h : Bool → Bool}

theorem Op.ignores_pure {α : Type} (a : α) : Op.Ignores g h (pure a : Op α) := fun _ => rfl

theorem Op.Ignores.bind {α β : Type} {x : Op α} {f : α → Op β} (hx : Op.Ignores g h x) (hf : ∀ a, Op.Ignores g h (f a)) :
    Op.Ignores g h (x >>= f) := by
  intro s
  rw [Op.bind_run, Op.bind_run, hx s]
  cases x s with
  | ok a t => exact hf a t
  | error e t => rfl

theorem Op.ignores_setAddr (a : DevAddr) : Op.Ignores g h (modify fun s => s.setAddr a : Op Unit) := fun _ => rfl

theorem busCall_ignores (c : Call) : Op.Ignores g h (busCall c) := by
  intro s
  have hanswer : (s.disguise g h).answerTo c = s.answerTo c := rfl
  rw [busCall, busCall, hanswer]
  cases s.answerTo c <;> rfl

theorem busWrite_ignores (a : DevAddr) (v : Byte) : Op.Ignores g h (busWrite a v) :=
  (busCall_ignores _).bind fun _ => Op.ignores_pure ()

theorem delay_ignores (ms : Ms) : Op.Ignores g h (delay ms) := fun _ => rfl

theorem perform_ignores (evs : List Event) : Op.Ignores g h (perform evs) := by
  induction evs with
  | nil => exact Op.ignores_pure ()
  | cons x l ih =>
    cases x with
    | write a v => exact (busWrite_ignores a v).bind fun _ => ih
    | read a r => exact (busCall_ignores (.read a)).bind fun _ => ih
    | delay ms => exact (delay_ignores ms).bind fun _ => ih

theorem probeFrom_ignores (l : List DevAddr) : Op.Ignores g h (probeFrom l) := by
  induction l with
  | nil => exact Op.ignores_pure none
  | cons a rest ih =>
    refine (busWrite_ignores a _).bind fun _ => (busCall_ignores (.read a)).bind fun r1 =>
      (busWrite_ignores a _).bind fun _ => (busCall_ignores (.read a)).bind fun r2 => ?_
    split
    · exact Op.ignores_pure _
    · exact ih

/-- Byte transfers write `RS` before they use it, so the disguise stays on only where it leaves `RS` alone. -/
theorem sendAll_ignores (l : List (Byte × Bit)) : Op.Ignores id h (sendAll l) := by
  have one : ∀ b rs, Op.Ignores id h (byteTransfer b rs) := fun b rs s => by
    rw [byteTransfer_run, byteTransfer_run]
    exact perform_ignores (g := id) (byteEvents s.addr s.params.tWrite s.bl b rs) (s.setRs rs)
  induction l with
  | nil => exact Op.ignores_pure ()
  | cons x rest ih => exact (one x.1 x.2).bind fun _ => ih

/-- The request `i` ends alike from a disguised state. -/
def EndsAlike (g : Bit → Bit) (h : Bool → Bool) (i : Instr) : Prop :=
  ∀ s t, exec i s = .next t →
    ∃ result, t = settle result ∧ exec i (s.disguise g h) = .next (settle (disguiseResult g h result))

/-- A request whose body takes no notice of the disguise. -/
theorem request_disguise {x : Op (Code × Byte)} {s t : State} (hx : Op.Ignores g h x) (ht : request x s = .next t) :
    ∃ result, t = settle result ∧ request x (s.disguise g h) = .next (settle (disguiseResult g h result)) := by
  obtain ⟨hidle, rfl⟩ := request_next ht
  refine ⟨_, rfl, ?_⟩
  rw [request_of_idle (s := s.disguise g h) hidle, ← hx s.accept]
  rfl

theorem endsAlike_setaddr (a : DevAddr) : EndsAlike g h (.setaddr a) := fun _ _ ht =>
  request_disguise ((Op.ignores_setAddr a).bind fun _ => Op.ignores_pure _) ht

/-- The probers look at no answer but the candidates'. -/
theorem endsAlike_of_prober {i : Instr} (hi : isProber i = true) : EndsAlike g h i := by
  intro s t ht
  cases i
  case probe =>
    refine request_disguise ((probeFrom_ignores candidates).bind fun found => ?_) ht
    cases found <;> exact Op.ignores_pure _
  case autodet =>
    refine request_disguise ((probeFrom_ignores candidates).bind fun found => ?_) ht
    cases found with
    | none => exact Op.ignores_pure _
    | some a => exact (Op.ignores_setAddr a).bind fun _ => Op.ignores_pure _
  all_goals cases hi

/-- The requests by how they are made: of byte transfers, or one of the four others. -/
theorem transfersOf_cases (mode : WrapOtherRows) (i : Instr) :
    (∃ l, transfersOf mode i = some l) ∨ (∃ a, i = .init a) ∨ (∃ a, i = .setaddr a) ∨ isProber i = true := by
  cases i with
  | init a => exact .inr (.inl ⟨a, rfl⟩)
  | setaddr a => exact .inr (.inr (.inl ⟨a, rfl⟩))
  | autodet => exact .inr (.inr (.inr rfl))
  | probe => exact .inr (.inr (.inr rfl))
  | _ => exact .inl ⟨_, rfl⟩

end

/-- With `RS` left alone, every request ends alike, whatever `SEQ_BROKEN` was. -/
theorem endsAlike_id (h : Bool → Bool) (i : Instr) : EndsAlike id h i := by
  intro s t ht
  obtain ⟨l, hl⟩ | ⟨a, rfl⟩ | ⟨a, rfl⟩ | hi := transfersOf_cases s.params.wrapOtherRows i
  · rw [exec_transfers hl] at ht
    rw [exec_transfers (s := s.disguise id h) hl]
    exact request_disguise ((sendAll_ignores l).bind fun _ => Op.ignores_pure _) ht
  · have hidle := (exec_inv ht).idle
    rw [exec_init a hidle] at ht
    rw [exec_init (s := s.disguise id h) a hidle]
    refine ⟨_, (Host.Outcome.next.inj ht).symm, congrArg _ (congrArg settle ?_)⟩
    exact (perform_ignores (g := id) (h := h) (initEvents a s.params.tWrite s.bl (preambleCount s.params.nPre3))).bind
      (fun _ => Op.ignores_pure _) ((s.accept.setAddr a).setRs 0)
  · exact endsAlike_setaddr a s t ht
  · exact endsAlike_of_prober hi s t ht

/-- Settles O43: every request ends alike, but for the bit, which an error sets and nothing else writes. -/
theorem sequenceBrokenChangesNothing : Obligations.SequenceBrokenChangesNothing := by
  intro i s t b ht
  obtain ⟨result, rfl, hdisguised⟩ := endsAlike_id (fun _ => b) i s t ht
  cases result with
  | ok answer u => exact ⟨b, hdisguised⟩
  | error e u => exact ⟨true, hdisguised⟩

/-! #### `RS` before a request -/

theorem transfersOf_ne_nil {mode : WrapOtherRows} {i : Instr} {l : List (Byte × Bit)} (hl : transfersOf mode i = some l) :
    l ≠ [] := by
  cases i <;> simp only [transfersOf, reduceCtorEq, Option.some.injEq] at hl <;> subst hl
  case putstr => exact textTransfers_ne_nil _ _ _ _
  case putnum => exact textTransfers_ne_nil _ _ _ _
  all_goals exact List.cons_ne_nil _ _

/-- The first transfer overwrites `RS`. -/
theorem sendAll_setRs {l : List (Byte × Bit)} (hne : l ≠ []) (s : State) (r : Bit) :
    sendAll l (s.setRs r) = sendAll l s := by
  cases l with
  | nil => exact absurd rfl hne
  | cons x rest =>
    have hfirst : byteTransfer x.1 x.2 (s.setRs r) = byteTransfer x.1 x.2 s := by
      rw [byteTransfer_run, byteTransfer_run]
      rfl
    rw [sendAll, Op.bind_run, Op.bind_run, hfirst]

theorem request_sendAll_setRs {l : List (Byte × Bit)} (hne : l ≠ []) (s : State) (r : Bit) :
    request (do sendAll l; return (.ok, 0)) (s.setRs r) = request (do sendAll l; return (.ok, 0)) s := by
  have hsame : sendAll l (s.setRs r).accept = sendAll l s.accept := sendAll_setRs hne s.accept r
  rw [request, request, State.setRs_seq, Op.bind_run, hsame, ← Op.bind_run]

/-- INIT and the requests made of byte transfers do not depend on the `RS` before them at all. -/
theorem exec_setRs {i : Instr} {s t : State} (r : Bit)
    (hi : (∃ l, transfersOf s.params.wrapOtherRows i = some l) ∨ ∃ a, i = .init a) (ht : exec i s = .next t) :
    exec i (s.setRs r) = .next t := by
  obtain ⟨l, hl⟩ | ⟨a, rfl⟩ := hi
  · rw [exec_transfers hl] at ht
    rw [exec_transfers (s := s.setRs r) hl, ← ht]
    exact request_sendAll_setRs (transfersOf_ne_nil hl) { s with bl := backlightDuring i s.bl } r
  · have hidle := (exec_inv ht).idle
    rw [exec_init a hidle] at ht
    rwa [exec_init (s := s.setRs r) a hidle]

/-- Settles O44: a request either writes `RS` before it uses it, or never uses it and leaves it as it is. -/
theorem registerSelectIsNeverObserved : Obligations.RegisterSelectIsNeverObserved := by
  intro i s t r ht
  have unused : EndsAlike (fun _ => r) id i → ∃ r', exec i { s with rs := r } = .next { t with rs := r' } := fun halike => by
    obtain ⟨result, rfl, hdisguised⟩ := halike s t ht
    exact ⟨r, by cases result <;> exact hdisguised⟩
  obtain hsends | hinit | ⟨a, rfl⟩ | hi := transfersOf_cases s.params.wrapOtherRows i
  · exact ⟨t.rs, exec_setRs r (.inl hsends) ht⟩
  · exact ⟨t.rs, exec_setRs r (.inr hinit) ht⟩
  · exact unused (endsAlike_setaddr a)
  · exact unused (endsAlike_of_prober hi)

end Sys2Proof.Machine

/-! ### What byte transfers and text put on the wire (20_memory.md R36; 43_layout.md R87 to R89) -/

namespace Sys2Proof.Machine

/-- Settles O38: the request emits its transfers to `ADDR`, and what these latch is known. -/
theorem latchedNibblesAreTheControllerBytes : Obligations.LatchedNibblesAreTheControllerBytes := by
  intro i s l p hidle hl hgrants hp
  obtain ⟨hsends, -⟩ := sendsTransfers_of_transfersOf hidle hl (transfersOf_ne_nil hl)
  exact ⟨_, _, hsends hgrants, rfl, latched_transferEvents _ _ _ _ hp⟩

theorem textTransfers_of_ne_nil (mode : WrapOtherRows) (col : Byte) (row : Row) {text : List Byte} (hne : text ≠ []) :
    textTransfers mode col row text = textTransfersFrom mode col row 0 text := by
  rw [textTransfers, if_neg hne, textTransfersFrom_eq]

/-! #### The commands and the data bytes of a text -/

theorem data_charTransfers (mode : WrapOtherRows) (col : Byte) (row : Row) (k : Nat) (t : Byte) :
    (charTransfers mode col row k t).filter (fun x => x.2 == 1) = [(t, 1)] := by
  unfold charTransfers
  split <;> rfl

/-- The data bytes of a text are its characters, in order (43_layout.md R88). -/
theorem data_textTransfers (mode : WrapOtherRows) (col : Byte) (row : Row) (text : List Byte) :
    ((textTransfers mode col row text).filter fun x => x.2 == 1).map (fun x => x.1) = text := by
  have characters : ∀ k, ((textTransfersFrom mode col row k text).filter fun x => x.2 == 1).map (fun x => x.1) = text := by
    induction text with
    | nil => exact fun _ => rfl
    | cons t rest ih =>
      intro k
      rw [textTransfersFrom, List.filter_append, List.map_append, data_charTransfers, ih (k + 1)]
      rfl
  by_cases hne : text = []
  · rw [hne]; rfl
  · rw [textTransfers_of_ne_nil mode col row hne, characters 0]

/-- The transfers of a text that are no data bytes are its positioning commands (43_layout.md R89). -/
theorem commands_textTransfers (mode : WrapOtherRows) (col : Byte) (row : Row) (text : List Byte) :
    (textTransfers mode col row text).countP (fun x => x.2 == 0) = positionings mode col row text.length := by
  have hdata := congrArg List.length (data_textTransfers mode col row text)
  rw [List.length_map, ← List.countP_eq_length_filter] at hdata
  have hall := List.length_eq_countP_add_countP (fun x : Byte × Bit => x.2 == 1) (l := textTransfers mode col row text)
  have hcommand : ∀ r : Bit, (r == 0) = decide (¬ (r == 1) = true) := by decide
  rw [length_textTransfers, hdata] at hall
  rw [List.countP_congr (q := fun x => decide (¬ (x.2 == 1) = true)) fun x _ => by rw [hcommand]]
  omega

/-- Every text has a positioning command: before its first character, or alone (43_layout.md R88). -/
theorem positionings_pos (mode : WrapOtherRows) (col : Byte) (row : Row) (len : Nat) :
    1 ≤ positionings mode col row len := by
  unfold positionings
  split
  next => exact Nat.le_refl 1
  next hlen => exact List.countP_pos_iff.2 ⟨0, List.mem_range.2 (Nat.pos_of_ne_zero hlen), rfl⟩

/-! #### The cells of a text -/

/-- A character whose transfers start where the character before has left the cursor goes to its own cell, and leaves the
cursor one further. -/
theorem placedCells_charTransfers (mode : WrapOtherRows) (col : Byte) (row : Row) {k : Nat} (t : Byte) {cursor : Byte}
    (hcursor : k ≠ 0 → cursor = cellByte mode col row (k - 1) + 1) (rest : List (Byte × Bit)) :
    placedCells cursor (charTransfers mode col row k t ++ rest) =
      (cellByte mode col row k, t) :: placedCells (cellByte mode col row k + 1) rest := by
  unfold charTransfers
  cases hrun : startsRun mode col row k with
  | true => rfl
  | false =>
    obtain ⟨hk, hnext⟩ : k ≠ 0 ∧ cellByte mode col row k = cellByte mode col row (k - 1) + 1 := by
      simpa [startsRun] using hrun
    rw [hnext, ← hcursor hk]
    rfl

theorem placedCells_textTransfersFrom (mode : WrapOtherRows) (col : Byte) (row : Row) (k : Nat) (text : List Byte)
    {cursor : Byte} (hcursor : k ≠ 0 → cursor = cellByte mode col row (k - 1) + 1) :
    placedCells cursor (textTransfersFrom mode col row k text) =
      (text.zipIdx k).map fun x => (cellByte mode col row x.2, x.1) := by
  induction text generalizing k cursor with
  | nil => rfl
  | cons t rest ih =>
    rw [textTransfersFrom, placedCells_charTransfers mode col row t hcursor,
      ih (k + 1) (cursor := cellByte mode col row k + 1) fun _ => rfl]
    rfl

/-- The characters of a text stand at their cells, wherever the cursor was (43_layout.md R87, R88). -/
theorem placedCells_textTransfers (mode : WrapOtherRows) (col : Byte) (row : Row) (text : List Byte) (cursor : Byte) :
    placedCells cursor (textTransfers mode col row text) =
      text.zipIdx.map fun x => (cellByte mode col row x.2, x.1) := by
  by_cases hne : text = []
  · rw [hne]; rfl
  · rw [textTransfers_of_ne_nil mode col row hne,
      placedCells_textTransfersFrom mode col row 0 text fun h0 => absurd rfl h0]

/-! #### PUTSTR -/

/-- The events of a PUTSTR whose writes are granted. -/
def putstrEvents (s : State) (col : Byte) (row : Row) (text : List Byte) : List Event :=
  transferEvents s.addr s.params.tWrite s.bl (textTransfers s.params.wrapOtherRows col row text)

theorem exec_putstr_ok {s : State} (col : Byte) (row : Row) (text : List Byte) (hidle : s.seq = .idle)
    (hgrants : s.grants (6 * (text.length + positionings s.params.wrapOtherRows col row text.length))) :
    ∃ t, exec (.putstr col row text) s = .next t ∧ t.trace = s.trace ++ putstrEvents s col row text ∧
      t.seqBroken = s.seqBroken := by
  obtain ⟨-, hsends, -⟩ := putString s col row text hidle
  rw [length_textTransfers] at hsends
  exact ⟨_, hsends hgrants, rfl, rfl⟩

theorem readBack_putstrEvents (s : State) (col : Byte) (row : Row) (text : List Byte) {p : Byte} (hp : p &&& 0x04 = 0x00) :
    readBack p s.addr (putstrEvents s col row text) = textTransfers s.params.wrapOtherRows col row text :=
  readBack_transferEvents _ _ _ _ hp

/-- In the trace of byte transfers every write has its pause right after it (40_sequencer.md R59). -/
theorem transferEvents_eq_flatMap (a : DevAddr) (t : Ms) (bl : Bit) (l : List (Byte × Bit)) :
    transferEvents a t bl l = (bytesTo a (transferEvents a t bl l)).flatMap fun v => [.write a v, .delay t] := by
  have one : ∀ b rs, byteEvents a t bl b rs =
      (bytesTo a (byteEvents a t bl b rs)).flatMap fun v => [.write a v, .delay t] := fun b rs => by
    simp [byteEvents, strobeEvents, bytesTo]
  induction l with
  | nil => rfl
  | cons x rest ih => rw [transferEvents_cons, bytesTo_append, List.flatMap_append, ← one, ← ih]

/-- Settles O47: PUTSTR's transfers, counted, each six writes with their pauses, and read back. -/
theorem textTransferCount : Obligations.TextTransferCount := by
  intro s col row text p hidle hp hgrants
  obtain ⟨t, ht, htrace, -⟩ := exec_putstr_ok col row text hidle hgrants
  obtain ⟨hwrites, -⟩ := counts_transferEvents s.addr s.params.tWrite s.bl
    (textTransfers s.params.wrapOtherRows col row text)
  rw [length_textTransfers] at hwrites
  refine ⟨positionings_pos _ _ _ _, t, _, ht, htrace, hwrites, ⟨_, transferEvents_eq_flatMap _ _ _ _⟩, ?_, ?_⟩
  · rw [readBack_putstrEvents s col row text hp, commands_textTransfers]
  · rw [readBack_putstrEvents s col row text hp, data_textTransfers]

/-- Settles O51: PUTSTR's transfers, read back and placed. -/
theorem putStringAddressesEveryCell : Obligations.PutStringAddressesEveryCell := by
  intro s col row text p cursor hidle hp hgrants
  obtain ⟨t, ht, htrace, -⟩ := exec_putstr_ok col row text hidle hgrants
  exact ⟨t, _, ht, htrace, by rw [readBack_putstrEvents s col row text hp, placedCells_textTransfers]⟩

end Sys2Proof.Machine

/-! ### The display's E line, and text on an initialised display (70_reset_and_hazards.md R110) -/

namespace Sys2Proof.Machine

/-- The last byte that the trace writes to the device `a` has E low. -/
def RestsLow (a : DevAddr) (evs : List Event) : Prop := ∃ p, (bytesTo a evs).getLast? = some p ∧ p &&& 0x04 = 0x00

theorem RestsLow.append_other {a : DevAddr} {before evs : List Event} (h : RestsLow a before) (hevs : bytesTo a evs = []) :
    RestsLow a (before ++ evs) := by
  rwa [RestsLow, bytesTo_append, hevs, List.append_nil]

theorem restsLow_transferEvents (a : DevAddr) (t : Ms) (bl : Bit) {l : List (Byte × Bit)} (hne : l ≠ [])
    (before : List Event) : RestsLow a (before ++ transferEvents a t bl l) := by
  rw [RestsLow, bytesTo_append]
  exact getLast?_bytesTo_transferEvents a t bl hne _

/-- INIT ends with byte transfers. -/
theorem restsLow_initEvents (a : DevAddr) (t : Ms) (bl : Bit) (n : Nat) (before : List Event) :
    RestsLow a (before ++ initEvents a t bl n) := by
  rw [initEvents, ← List.append_assoc]
  exact restsLow_transferEvents a t bl (List.cons_ne_nil _ _) _

/-- An INIT answered OK has emitted its whole trace. -/
theorem trace_of_init_ok {a : DevAddr} {s t : State} (ht : exec (.init a) s = .next t)
    (hok : t.replies = s.replies ++ [okReply 0]) :
    t.trace = s.trace ++ initEvents a s.params.tWrite s.bl (preambleCount s.params.nPre3) := by
  rw [exec_init a (exec_inv ht).idle, Op.bind_run] at ht
  obtain rfl := (Host.Outcome.next.inj ht).symm
  cases hrun : perform (initEvents a s.params.tWrite s.bl (preambleCount s.params.nPre3)) ((s.accept.setAddr a).setRs 0) with
  | ok done u =>
    obtain rfl := perform_eq_advance (noReads_initEvents _ _ _ _) hrun
    rfl
  | error e u =>
    rw [hrun] at hok
    have hlast : [errorReply e] = [okReply 0] := (List.append_inj' hok rfl).2
    cases hlast

/-- A request made of byte transfers that leaves `SEQ_BROKEN` clear has emitted all of them. -/
theorem trace_of_transfersOf {i : Instr} {s t : State} {l : List (Byte × Bit)}
    (hl : transfersOf s.params.wrapOtherRows i = some l) (ht : exec i s = .next t) (hbroken : t.seqBroken = false) :
    t.trace = s.trace ++ transferEvents s.addr s.params.tWrite (backlightDuring i s.bl) l := by
  rw [exec_transfers hl] at ht
  obtain ⟨-, rfl⟩ := request_next ht
  rw [Op.bind_run] at hbroken ⊢
  cases hrun : sendAll l { s with bl := backlightDuring i s.bl }.accept with
  | ok done u =>
    obtain rfl := sendAll_eq_advance hrun
    rfl
  | error e u =>
    rw [hrun] at hbroken
    cases hbroken

/-- A request that is no probe and leaves another device in `ADDR` writes nothing to `a`. -/
theorem bytesTo_of_addr_ne {a : DevAddr} {i : Instr} {s t : State} (hi : isProber i = false) (ht : exec i s = .next t)
    (hne : t.addr ≠ a) : ∃ evs, t.trace = s.trace ++ evs ∧ bytesTo a evs = [] := by
  obtain ⟨evs, htrace, hevs⟩ := everyStrobeByteCarriesTheBacklight i s t hi ht
  refine ⟨evs, htrace, bytesTo_of_other hne fun e he => ?_⟩
  obtain ⟨v, hv, -⟩ | hpause := hevs e he
  · exact .inl ⟨v, hv⟩
  · exact .inr hpause

/-- E stays low at `a` through every request that does not disturb it and leaves `SEQ_BROKEN` clear: a request of byte
transfers to `a` ends them with E low, and any other writes nothing to `a`. -/
theorem exec_restsLow {a : DevAddr} {i : Instr} {s t : State} (hlow : RestsLow a s.trace) (ht : exec i s = .next t)
    (hbroken : t.seqBroken = false) (hspared : sparesDevice a i s t) : RestsLow a t.trace := by
  obtain ⟨hinit, -, hprobe⟩ := hspared
  cases hi : isProber i with
  | true =>
    obtain ⟨evs, r, h⟩ := exec_answered ht
    rw [h.trace]
    exact hlow.append_other (hprobe hi evs h.trace)
  | false =>
    by_cases haddr : t.addr = a
    · obtain ⟨l, hl⟩ | ⟨b, rfl⟩ | ⟨b, rfl⟩ | hprober := transfersOf_cases s.params.wrapOtherRows i
      · have hsame : t.addr = s.addr := onlyThreeRequestsWriteTheAddress.1 i s t ht
          (by rintro b rfl; cases hl) (by rintro b rfl; cases hl) (by rintro rfl; cases hl)
        rw [trace_of_transfersOf hl ht hbroken, ← hsame, haddr]
        exact restsLow_transferEvents a _ _ (transfersOf_ne_nil hl) _
      · have hb : t.addr = b := onlyThreeRequestsWriteTheAddress.2.1 b s t ht
        exact absurd (by rw [← hb, haddr]) hinit
      · have hnext := (exec_setaddr b (exec_inv ht).idle).symm.trans ht
        obtain rfl := Host.Outcome.next.inj hnext
        exact hlow
      · rw [hi] at hprober
        cases hprober
    · obtain ⟨evs, htrace, hevs⟩ := bytesTo_of_addr_ne hi ht haddr
      rw [htrace]
      exact hlow.append_other hevs

theorem step_of_decode {s : State} {q : Request} {rest : List Request} {i : Instr}
    (hnext : s.nextRequest = some (q, rest)) (hdec : decode q = some i) : step s = exec i (s.withPort rest) := by
  simp only [step, hnext, hdec]

/-- A step that leaves `SEQ_BROKEN` clear has found it clear (10_state.md R21). -/
theorem seqBroken_of_step {s t : State} (hstep : step s = .next t) (hbroken : t.seqBroken = false) :
    s.seqBroken = false := by
  obtain rfl | ⟨q, rest, -, ⟨i, -, ht⟩ | ⟨-, rfl⟩⟩ := step_cases hstep
  · exact hbroken
  · obtain ⟨evs, r, h⟩ := exec_answered ht
    rw [h.seqBroken] at hbroken
    exact (Bool.or_eq_false_iff.1 hbroken).1
  · exact hbroken

/-- Settles O52, by induction on how the state was reached: a successful INIT ends with E low, and each later step keeps it
low. -/
theorem enableLineRestsLow : Obligations.EnableLineRestsLow := by
  intro a s hready hbroken
  change RestsLow a s.trace
  induction hready with
  | init hnext hdec hstep hok =>
    rw [step_of_decode hnext hdec] at hstep
    rw [trace_of_init_ok hstep hok]
    exact restsLow_initEvents a _ _ _ _
  | @later s t before hstep hspared ih =>
    have hlow := ih (seqBroken_of_step hstep hbroken)
    obtain rfl | ⟨q, rest, hnext, ⟨i, hdec, ht⟩ | ⟨-, rfl⟩⟩ := step_cases hstep
    · exact hlow
    · exact exec_restsLow (s := s.withPort rest) hlow ht hbroken (hspared q rest i hnext hdec)
    · exact hlow
  | inputs port bus before ih => exact ih hbroken

/-- Settles O35: on an initialised display E rests low, so PUTSTR's transfers are read back whole, and each character goes
to its cell. -/
theorem everyCharacterLandsInItsCell : Obligations.EveryCharacterLandsInItsCell := by
  intro s col row text p cursor hidle ⟨hready, hclear⟩ hlast _ hgrants
  obtain ⟨low, hlow, hp⟩ := enableLineRestsLow s.addr s hready hclear
  obtain rfl : low = p := Option.some.inj (hlow.symm.trans hlast)
  obtain ⟨t, ht, htrace, hbroken⟩ := exec_putstr_ok col row text hidle hgrants
  refine ⟨t, _, ht, htrace, hbroken.trans hclear, ?_⟩
  rw [readBack_putstrEvents s col row text hp]
  exact ⟨commands_textTransfers _ _ _ _, data_textTransfers _ _ _ _, placedCells_textTransfers _ _ _ _ _⟩

end Sys2Proof.Machine
